-- ==== Sys2Proof/Word.lean ====
section
/-! DEFINITION. The word types of the nibble-addresser core and the plain data a byte memory is held in.
Widths: spec/00_scope.md rule R10. -/

namespace Sys2Proof

/-- A data byte, mask byte, value byte, colour operand or glyph row (R10: 8 bits). -/
abbrev Byte := BitVec 8

/-- A coordinate, byte-offset or text-pointer operand, and the width of `ADDR` (R10: 16 bits). -/
abbrev Half := BitVec 16

/-- One word of the command port (R10, R60: 128 bits, bit 0 least significant). -/
abbrev CommandWord := BitVec 128

/-- A byte memory: its (address, byte) cells in rising address order, without the cells that hold what an unlisted
address reads as (`Config.unlistedByte`). `Memory.wf` is that canonical form. -/
abbrev Memory := List Host.Cell

end Sys2Proof
end

