-- ==== Sys2Proof/Config.lean ====
section
/-! DEFINITION. The parameters of a run (spec/00_scope.md rules R7, R8; spec/10_state.md rules R29, R30) and the fixed
constants of the text units (R9). Nothing here changes while the machine runs. -/

namespace Sys2Proof

/-- The parameters the model takes as arguments (R7, R29, R30; "OPEN" in spec/92_eei_decisions.md): the surface size,
the font table and the string memory. A claim about every state quantifies over all of them. -/
structure Config where
  /-- `W`, pixels per row. -/
  width : Nat
  /-- `H`, rows. -/
  height : Nat
  /-- `FONT`, the read-only font table, addresses 0 to 511. -/
  font : Memory
  /-- `TEXT`, the read-only string memory, addresses 0 to 65535. -/
  text : Memory
deriving DecidableEq, Repr

/-- `RB`, bytes per row: `W / 2` (R7). -/
def Config.rowBytes (c : Config) : Nat := c.width / 2

/-- `SBC`, bytes of video memory: `RB * H` (R7). -/
def Config.surfaceBytes (c : Config) : Nat := c.rowBytes * c.height

/-- What an address with no cell reads as. For `VRAM` the spec gives no initial contents (R34): DESIGN CHOICE, unsafe,
notes/assumptions/2.md. Every contents is still a `Memory`: a byte that is not 0 is listed. -/
def Config.unlistedByte : Byte := 0#8

/-- `FIRST`, the first character code the font covers (R9). -/
def Config.firstChar : Nat := 32
/-- `LAST`, the last character code the font covers (R9). -/
def Config.lastChar : Nat := 95
/-- `ADV`, the horizontal advance per character (R9). -/
def Config.advance : Nat := 8
/-- `FONT_BYTES`, the size of the font table (R9). -/
def Config.fontBytes : Nat := (Config.lastChar - Config.firstChar + 1) * 8
/-- The size of `TEXT` (R30). -/
def Config.textBytes : Nat := 65536
/-- The reference instance of R8, `W = 320`, `H = 240`, with `FONT` and `TEXT` all zero. The spec fixes none of the four
(R7, R29, R30): as the configuration of the reset state this is a DESIGN CHOICE, notes/assumptions/1.md. -/
def Config.reference : Config := { width := 320, height := 240, font := [], text := [] }

/-- The small instance of R8, `W = 16`, `H = 8`, with the font and the strings it is given. -/
def Config.small (font text : Memory) : Config := { width := 16, height := 8, font := font, text := text }

end Sys2Proof
end

