-- ==== Sys2Proof/Syntax.lean ====
section
/-! DEFINITION. The syntax of commands: one constructor of `Instr` per row of spec/opcode_table.json, and the
assembler's source form of spec/30_encoding.md rule R68. -/

namespace Sys2Proof

/-- The glyph operand of DRAWGLYPH, the list `(g0, ..., g7)`, row 0 the top row (R65, R111). -/
structure Glyph where
  g0 : Byte
  g1 : Byte
  g2 : Byte
  g3 : Byte
  g4 : Byte
  g5 : Byte
  g6 : Byte
  g7 : Byte
deriving DecidableEq, Repr

/-- The nine commands (R64). Each operand has exactly the width of its field (R65), so every term of the type is a
command the core can be given. -/
inductive Instr where
  /-- SETADDR `a` (R81). -/
  | setaddr (a : Half)
  /-- SETSTEP `n` (R82). -/
  | setstep (n : BitVec 1)
  /-- WRBYTE `v` (R83). -/
  | wrbyte (v : Byte)
  /-- RMW `m, v` (R84). -/
  | rmw (m v : Byte)
  /-- CLEAR `color` (R94). -/
  | clear (color : Byte)
  /-- SETPIXEL `x, y, color` (R95). -/
  | setpixel (x y : Half) (color : Byte)
  /-- DRAWLINE `x0, y0, x1, y1, color` (R100). -/
  | drawline (x0 y0 x1 y1 : Half) (color : Byte)
  /-- DRAWGLYPH `g, x, y, fg, bg` (R110). -/
  | drawglyph (g : Glyph) (x y : Half) (fg bg : Byte)
  /-- DRAWSTRING `p, x, y, fg, bg` (R113). -/
  | drawstring (p x y : Half) (fg bg : Byte)
deriving DecidableEq, Repr

/-- The nine mnemonics (R64). -/
inductive Mnemonic where
  | setaddr | setstep | wrbyte | rmw | clear | setpixel | drawline | drawglyph | drawstring
deriving DecidableEq, Repr

/-- The mnemonic of a command. -/
def Instr.mnemonic : Instr → Mnemonic
  | .setaddr _ => .setaddr
  | .setstep _ => .setstep
  | .wrbyte _ => .wrbyte
  | .rmw _ _ => .rmw
  | .clear _ => .clear
  | .setpixel _ _ _ => .setpixel
  | .drawline _ _ _ _ _ => .drawline
  | .drawglyph _ _ _ _ _ => .drawglyph
  | .drawstring _ _ _ _ _ => .drawstring

/-- A command as the assembler reads it (R68): a mnemonic and its operands in source order, as the numbers written. The
eight rows of a glyph count as eight operands. -/
structure SourceCommand where
  mnemonic : Mnemonic
  operands : List Nat
deriving DecidableEq, Repr

/-- The width of each operand of a command, in the assembler's operand order (R65, R68). -/
def Mnemonic.operandWidths : Mnemonic → List Nat
  | .setaddr => [16]
  | .setstep => [1]
  | .wrbyte => [8]
  | .rmw => [8, 8]
  | .clear => [8]
  | .setpixel => [16, 16, 8]
  | .drawline => [16, 16, 16, 16, 8]
  | .drawglyph => [8, 8, 8, 8, 8, 8, 8, 8, 16, 16, 8, 8]
  | .drawstring => [16, 16, 16, 8, 8]

end Sys2Proof
end

