-- ==== Sys2Proof/WellFormed.lean ====
section
/-! DEFINITION. The checks on what the model is given: a memory in canonical form, a configuration of this hardware
(spec/00_scope.md rule R7, spec/10_state.md rules R29, R30), and a source command whose operands fit their fields
(spec/30_encoding.md rule R68). A term of `Instr` needs no check: its operands have the widths of their fields. -/

namespace Sys2Proof

/-- The canonical form above an address: every cell lies at `lo` or above, addresses rise strictly, and no cell holds
what an unlisted address reads as. -/
def Memory.wfFrom (lo : Nat) : Memory → Bool
  | [] => true
  | (k, b) :: rest => decide (lo ≤ k) && (b != Config.unlistedByte) && Memory.wfFrom (k + 1) rest

/-- A memory is in canonical form. -/
def Memory.wf (m : Memory) : Bool := Memory.wfFrom 0 m

/-- Every cell of a memory lies below `size`. -/
def Memory.below (size : Nat) (m : Memory) : Bool := m.all fun cell => decide (cell.1 < size)

/-- A memory of `size` bytes in canonical form. -/
def Memory.wfSized (size : Nat) (m : Memory) : Bool := m.wf && m.below size

/-- A configuration of this hardware: `W` even, `2 <= W <= 65536`, `1 <= H <= 65536`, `SBC <= 65535` (R7); `FONT` a
memory of 512 bytes (R29) and `TEXT` one of 65536 bytes (R30). "A configuration that breaks a constraint is not a
configuration of this hardware; a model refuses it" (R7): `step` does. -/
def Config.wf (c : Config) : Bool :=
  decide (c.width % 2 = 0) && decide (2 ≤ c.width) && decide (c.width ≤ 65536) &&
  decide (1 ≤ c.height) && decide (c.height ≤ 65536) && decide (c.surfaceBytes ≤ 65535) &&
  Memory.wfSized Config.fontBytes c.font && Memory.wfSized Config.textBytes c.text

/-- Each number fits the field of its width, and there is one number for each field. -/
def operandsFit : List Nat → List Nat → Bool
  | [], [] => true
  | w :: ws, n :: ns => decide (n < 2 ^ w) && operandsFit ws ns
  | _, _ => false

/-- A source command the assembler builds a word for: "an operand that does not fit its field ... is an assembly
error" (R68). -/
def SourceCommand.wf (c : SourceCommand) : Bool := operandsFit c.mnemonic.operandWidths c.operands

end Sys2Proof
end

