-- ==== Sys2Proof/Decode.lean ====
section
/-! DEFINITION. The command word: fields, decoder, opcode table, encoder (spec/30_encoding.md rules R60 to R71). -/

namespace Sys2Proof

/-- The opcode byte of each command (R64). -/
def Mnemonic.opcode : Mnemonic → Byte
  | .setaddr => 0x01#8
  | .setstep => 0x02#8
  | .wrbyte => 0x03#8
  | .rmw => 0x04#8
  | .clear => 0x10#8
  | .setpixel => 0x11#8
  | .drawline => 0x20#8
  | .drawglyph => 0x30#8
  | .drawstring => 0x31#8

/-- Why a word is no command (R66, R70). The core reports one code for both, IllegalCommand. -/
inductive Reject where
  /-- The opcode byte is none of the nine of R64. -/
  | undefinedOpcode (opcode : Byte)
  /-- The opcode is defined and a reserved bit of its format is 1. -/
  | reservedBit (mnemonic : Mnemonic)
  /-- The bytes given are not the 16 of a command word (R67: every command has this one length). -/
  | notSixteenBytes (count : Nat)
deriving DecidableEq, Repr

/-- What a word decodes to: exactly one command, or illegal (R70). -/
inductive Decoded where
  | command (i : Instr)
  | illegal (why : Reject)
deriving DecidableEq, Repr

/-- Step (2) of R70: a command whose reserved bits are all 0, or an illegal word. -/
def checkReserved {n : Nat} (reserved : BitVec n) (i : Instr) : Decoded :=
  if reserved = 0#n then .command i else .illegal (.reservedBit i.mnemonic)

/-- The decoder (R70): look the opcode byte up (R64), check the reserved bits of its format, extract its fields
(R63, R65; `cw.extractLsb hi lo` is the slice `cw[hi:lo]` of R14). -/
def decode (cw : CommandWord) : Decoded :=
  let opcode : Byte := cw.extractLsb 7 0
  if opcode = 0x01#8 then
    checkReserved (cw.extractLsb 127 24) (.setaddr (cw.extractLsb 23 8))
  else if opcode = 0x02#8 then
    checkReserved (cw.extractLsb 127 9) (.setstep (cw.extractLsb 8 8))
  else if opcode = 0x03#8 then
    checkReserved (cw.extractLsb 127 16) (.wrbyte (cw.extractLsb 15 8))
  else if opcode = 0x04#8 then
    checkReserved (cw.extractLsb 127 24) (.rmw (cw.extractLsb 15 8) (cw.extractLsb 23 16))
  else if opcode = 0x10#8 then
    checkReserved (cw.extractLsb 127 16) (.clear (cw.extractLsb 15 8))
  else if opcode = 0x11#8 then
    checkReserved (cw.extractLsb 127 48)
      (.setpixel (cw.extractLsb 23 8) (cw.extractLsb 39 24) (cw.extractLsb 47 40))
  else if opcode = 0x20#8 then
    checkReserved (cw.extractLsb 127 80)
      (.drawline (cw.extractLsb 23 8) (cw.extractLsb 39 24) (cw.extractLsb 55 40) (cw.extractLsb 71 56)
        (cw.extractLsb 79 72))
  else if opcode = 0x30#8 then
    checkReserved (cw.extractLsb 127 120)
      (.drawglyph
        { g0 := cw.extractLsb 63 56, g1 := cw.extractLsb 71 64, g2 := cw.extractLsb 79 72,
          g3 := cw.extractLsb 87 80, g4 := cw.extractLsb 95 88, g5 := cw.extractLsb 103 96,
          g6 := cw.extractLsb 111 104, g7 := cw.extractLsb 119 112 }
        (cw.extractLsb 23 8) (cw.extractLsb 39 24) (cw.extractLsb 47 40) (cw.extractLsb 55 48))
  else if opcode = 0x31#8 then
    checkReserved (cw.extractLsb 127 72)
      (.drawstring (cw.extractLsb 23 8) (cw.extractLsb 39 24) (cw.extractLsb 55 40) (cw.extractLsb 63 56)
        (cw.extractLsb 71 64))
  else .illegal (.undefinedOpcode opcode)

/-- Byte `k` of a word, `cw[8k+7 : 8k]` (R60). -/
def wordByte (cw : CommandWord) (k : Nat) : Byte := cw.extractLsb' (8 * k) 8

/-- A word written out as its 16 bytes, byte 0 first (R60). -/
def wordBytes (cw : CommandWord) : List Byte := (List.range 16).map (wordByte cw)

/-- The number whose bytes are given least significant first (R60, R62). -/
def bytesValue : List Byte → Nat
  | [] => 0
  | b :: rest => b.toNat + 256 * bytesValue rest

/-- The decoder on bytes: total on any byte sequence (R60, R67). -/
def decodeBytes (bytes : List Byte) : Decoded :=
  if bytes.length = 16 then decode (BitVec.ofNat 128 (bytesValue bytes))
  else .illegal (.notSixteenBytes bytes.length)

/-- The word presented at the command port for an instruction whose bits are `w`: the low `nbits` bits of `w`, every
bit above them 0. -/
def tableWord (nbits w : Nat) : CommandWord := BitVec.ofNat 128 (w % 2 ^ nbits)

/-- The command the decoder reads from a word, none for an illegal word. -/
def Decoded.command? : Decoded → Option Instr
  | .command i => some i
  | .illegal _ => none

/-- The instruction the decoder reads from an instruction whose bits are `w`, laid out as the 16 bytes of a word. -/
def decodeTableWord (nbits w : Nat) : Option Instr :=
  (decodeBytes (wordBytes (tableWord nbits w))).command?

/-- A row of spec/opcode_table.json: a word decodes to the mnemonic when `cw & mask = match` (R70). -/
structure OpcodeRow where
  mnemonic : Mnemonic
  mask : CommandWord
  pattern : CommandWord
deriving DecidableEq, Repr

/-- spec/opcode_table.json, the masks also in spec/95_test_vectors.md E4. -/
def opcodeTable : List OpcodeRow :=
  [ ⟨.setaddr, 0xffffffffffffffffffffffffff0000ff#128, 0x01#128⟩,
    ⟨.setstep, 0xfffffffffffffffffffffffffffffeff#128, 0x02#128⟩,
    ⟨.wrbyte, 0xffffffffffffffffffffffffffff00ff#128, 0x03#128⟩,
    ⟨.rmw, 0xffffffffffffffffffffffffff0000ff#128, 0x04#128⟩,
    ⟨.clear, 0xffffffffffffffffffffffffffff00ff#128, 0x10#128⟩,
    ⟨.setpixel, 0xffffffffffffffffffff0000000000ff#128, 0x11#128⟩,
    ⟨.drawline, 0xffffffffffff000000000000000000ff#128, 0x20#128⟩,
    ⟨.drawglyph, 0xff0000000000000000000000000000ff#128, 0x30#128⟩,
    ⟨.drawstring, 0xffffffffffffff0000000000000000ff#128, 0x31#128⟩ ]

/-- A word matches a row of the table. -/
def OpcodeRow.matches (row : OpcodeRow) (cw : CommandWord) : Bool := cw &&& row.mask == row.pattern

/-- Fields laid one above the other from bit 0 up, each a width and the number it holds. -/
def pack : List (Nat × Nat) → Nat
  | [] => 0
  | (width, value) :: rest => value + 2 ^ width * pack rest

/-- The fields of a command from bit 0 up (R62, R63): the opcode byte, then the operand fields of its format in the order
of their bit positions. -/
def Instr.fields : Instr → List (Nat × Nat)
  | .setaddr a => [(8, Mnemonic.setaddr.opcode.toNat), (16, a.toNat)]
  | .setstep n => [(8, Mnemonic.setstep.opcode.toNat), (1, n.toNat)]
  | .wrbyte v => [(8, Mnemonic.wrbyte.opcode.toNat), (8, v.toNat)]
  | .rmw m v => [(8, Mnemonic.rmw.opcode.toNat), (8, m.toNat), (8, v.toNat)]
  | .clear color => [(8, Mnemonic.clear.opcode.toNat), (8, color.toNat)]
  | .setpixel x y color => [(8, Mnemonic.setpixel.opcode.toNat), (16, x.toNat), (16, y.toNat), (8, color.toNat)]
  | .drawline x0 y0 x1 y1 color =>
    [(8, Mnemonic.drawline.opcode.toNat), (16, x0.toNat), (16, y0.toNat), (16, x1.toNat), (16, y1.toNat),
      (8, color.toNat)]
  | .drawglyph g x y fg bg =>
    [(8, Mnemonic.drawglyph.opcode.toNat), (16, x.toNat), (16, y.toNat), (8, fg.toNat), (8, bg.toNat),
      (8, g.g0.toNat), (8, g.g1.toNat), (8, g.g2.toNat), (8, g.g3.toNat), (8, g.g4.toNat), (8, g.g5.toNat),
      (8, g.g6.toNat), (8, g.g7.toNat)]
  | .drawstring p x y fg bg =>
    [(8, Mnemonic.drawstring.opcode.toNat), (16, p.toNat), (16, x.toNat), (16, y.toNat), (8, fg.toNat), (8, bg.toNat)]

/-- The encoder: the fields of a command, and every bit above the last one 0 (R62). -/
def encode (i : Instr) : CommandWord := BitVec.ofNat 128 (pack i.fields)

end Sys2Proof
end

