-- ==== Sys2Proof/Machine/State.lean ====
section
/-! DEFINITION. The machine state as plain data (spec/10_state.md rule R20), the ways a step can stop, and the state
after reset (R34). -/

namespace Sys2Proof.Machine

/-- An event of the port event trace (R31). Addresses are `VRAM` addresses. -/
inductive PortEvent where
  /-- `SA(a)`: `a` was written to `ADDR`. -/
  | sa (a : Nat)
  /-- `SS(n)`: `n` was written to `STEP`. -/
  | ss (n : BitVec 1)
  /-- `WR(a, v)`: byte `v` was written at address `a`. -/
  | wr (a : Nat) (v : Byte)
  /-- `RMW(a, m, v)`: at address `a` the bits of `m` were cleared and `v` ORed in. -/
  | rmw (a : Nat) (m v : Byte)
  /-- `ADV(d)`: `d` was added to `ADDR`. -/
  | adv (d : Nat)
deriving DecidableEq, Repr

/-- The machine state: the tuple `(ADDR, STEP, ERR, VRAM, TRACE)` of R20, with the parameters of the run (`cfg`) and the
words the host has put on the command port (`commands`) beside it, since a step is a function of the state alone. -/
structure State where
  /-- `ADDR`, the address register (R21): 16 bits, `0 .. SBC`. -/
  addr : Half
  /-- `STEP`, the step register (R22): 1 bit. -/
  stepReg : BitVec 1
  /-- `ERR`, the result register (R23): 3 bits, the result of the most recent command. -/
  err : BitVec 3
  /-- `VRAM`, the video memory (R28): addresses `0 .. SBC - 1`. -/
  vram : Memory
  /-- `TRACE`, the port event trace (R31), NEWEST EVENT FIRST; `State.events` is the list in order. -/
  trace : List PortEvent
  /-- The parameters of the run, `W`, `H`, `FONT`, `TEXT` (R7, R29, R30). No step changes them. -/
  cfg : Config
  /-- The command port (R40, R61): the words the host has yet to have executed, the next one first. -/
  commands : List CommandWord
deriving DecidableEq, Repr

/-- Why the model stops with a fault. -/
inductive Fault where
  /-- Raised by `command` when the effect part of a command would reach a `VRAM` address that does not exist (R46).
  Safe: the model stops. With a configuration of this hardware the check parts exclude it (R53), so no `step` raises it. -/
  | vramAddress
deriving DecidableEq, Repr

/-- Why the model gives no meaning. -/
inductive Refusal where
  /-- Raised by an arm of `exec` whose instruction has no meaning in the model. Safe. No arm raises it. -/
  | notModelled (mnemonic : String)
  /-- Raised by `step` when `cfg` is no configuration of this hardware: "a model refuses it" (R7). Safe. -/
  | illFormedConfig
deriving DecidableEq, Repr

/-- The outcome of a step or of a command. -/
abbrev Result := Host.Outcome State Fault Refusal

/-- `TRACE` in the order of R31, the oldest event first. -/
def State.events (s : State) : List PortEvent := s.trace.reverse

/-- The state after reset (R34, R140) for a configuration and an initial `VRAM`, the two arguments the spec leaves open:
`ADDR = 0`, `STEP = 0`, `ERR = 0`, `TRACE` empty, the core waiting for the first command word. -/
def State.resetWith (cfg : Config) (vram : Memory) : State :=
  { addr := 0#16, stepReg := 0#1, err := 0#3, vram := vram, trace := [], cfg := cfg, commands := [] }

/-- The reset state of the reference instance (R8) with nothing listed in `VRAM`. The configuration and the contents are
DESIGN CHOICES (notes/assumptions/1.md and 2.md); `State.resetWith` is reset for every other one. -/
def State.reset : State := State.resetWith Config.reference []

end Sys2Proof.Machine
end

