-- ==== Sys2Proof/Machine/Flags.lean ====
section
/-! DEFINITION. The core has no flags and no condition codes (spec/10_state.md rule R32). Its one status is `ERR` (R23):
this file holds the error kinds and their codes (spec/60_exceptions.md rule R120). -/

namespace Sys2Proof.Machine

/-- The six error kinds (R120). -/
inductive ErrorKind where
  | addressOutOfRange
  | unsupportedGeometry
  | invalidCharacter
  | invalidColor
  | stepNotZero
  | illegalCommand
deriving DecidableEq, Repr

/-- `code(K)`, the value `ERR` takes when `K` is raised (R23, R120). -/
def ErrorKind.code : ErrorKind → BitVec 3
  | .addressOutOfRange => 1#3
  | .unsupportedGeometry => 2#3
  | .invalidCharacter => 3#3
  | .invalidColor => 4#3
  | .stepNotZero => 5#3
  | .illegalCommand => 6#3

/-- The value `ERR` takes when a command completes (R23: OK). -/
def okCode : BitVec 3 := 0#3

/-- The checks of a command in pseudocode order, each with whether it fails: the first that fails is reported (R128). -/
def firstError : List (Bool × ErrorKind) → Option ErrorKind
  | [] => none
  | (fails, k) :: rest => if fails then some k else firstError rest

end Sys2Proof.Machine
end

