-- ==== Sys2Proof/Machine/Operands.lean ====
section
/-! DEFINITION. Operand forms and the nibble addresser: byte reads of the memories, legal coordinates and colours
(spec/41_framebuffer.md rule R90), `nib`, `off`, `pmask`, `pval`, `fill`, `pixel` (R91 to R93, R96), glyph bits
(spec/43_glyph_text.md rule R111), the characters of the font (R115). Sums are natural numbers (spec/00_scope.md rule R15). -/

namespace Sys2Proof

/-- The byte a memory holds at an address. -/
def Memory.read : Memory → Nat → Byte
  | [], _ => Config.unlistedByte
  | (k, b) :: rest, a => if k = a then b else Memory.read rest a

/-- Store a byte, keeping the canonical form: the byte an unlisted address reads as leaves no cell. -/
def Memory.write : Memory → Nat → Byte → Memory
  | [], a, v => if v = Config.unlistedByte then [] else [(a, v)]
  | (k, b) :: rest, a, v =>
    if a < k then
      if v = Config.unlistedByte then (k, b) :: rest else (a, v) :: (k, b) :: rest
    else if a = k then
      if v = Config.unlistedByte then rest else (a, v) :: rest
    else (k, b) :: Memory.write rest a v

namespace Machine

/-- `FontRead(i)` (R16): the byte `FONT[i]`. -/
def fontRead (c : Config) (i : Nat) : Byte := c.font.read i

/-- `TextRead(p)` (R16, R30): the byte `TEXT[p mod 65536]`. -/
def textRead (c : Config) (p : Nat) : Byte := c.text.read (p % Config.textBytes)

/-- A coordinate is in range (R90). -/
abbrev inRange (c : Config) (x y : Nat) : Prop := x < c.width ∧ y < c.height

/-- A colour operand is legal (R90). -/
abbrev legalColor (color : Byte) : Prop := color.toNat ≤ 15

/-- The half of a byte a pixel lives in. -/
inductive Nibble where
  /-- Bits 7:4, the left nibble. -/
  | hi
  /-- Bits 3:0, the right nibble. -/
  | lo
deriving DecidableEq, Repr

/-- `nib(x)` (R91): even columns in the high nibble, odd columns in the low one. -/
def nib (x : Nat) : Nibble := if x % 2 = 0 then .hi else .lo

/-- `off(x, y) = y * RB + (x >> 1)` (R92). -/
def off (c : Config) (x y : Nat) : Nat := y * c.rowBytes + x / 2

/-- `pmask(x)` (R93). -/
def pmask (x : Nat) : Byte :=
  match nib x with
  | .hi => 0xF0#8
  | .lo => 0x0F#8

/-- `pval(x, c)` (R93). -/
def pval (x : Nat) (color : Byte) : Byte :=
  match nib x with
  | .hi => color <<< 4
  | .lo => color

/-- The byte CLEAR writes, `c | (c << 4)` (R93, R94). -/
def fill (color : Byte) : Byte := color ||| (color <<< 4)

/-- `pixel(V, x, y)` (R96): the colour a video memory holds at a coordinate. No command uses it; statements do. -/
def pixel (c : Config) (vram : Memory) (x y : Nat) : BitVec 4 :=
  match nib x with
  | .hi => (vram.read (off c x y)).extractLsb 7 4
  | .lo => (vram.read (off c x y)).extractLsb 3 0

/-- `g[r]`, row `r` of a glyph, the top row 0 (R111). -/
def glyphRow (g : Glyph) : Nat → Byte
  | 0 => g.g0
  | 1 => g.g1
  | 2 => g.g2
  | 3 => g.g3
  | 4 => g.g4
  | 5 => g.g5
  | 6 => g.g6
  | _ => g.g7

/-- `gbit(g, r, c) = g[r][7 - c]` (R111): bit 7 of a row byte is column 0. -/
def gbit (g : Glyph) (r c : Nat) : Bool := (glyphRow g r).getLsbD (7 - c)

/-- `gcol(g, r, c, fg, bg)` (R111): `fg` where the bit is 1, else `bg`. -/
def gcol (g : Glyph) (r c : Nat) (fg bg : Byte) : Byte := if gbit g r c then fg else bg

/-- A character code is covered by the font (R115). -/
abbrev covered (k : Nat) : Prop := Config.firstChar ≤ k ∧ k ≤ Config.lastChar

/-- Row `r` of the glyph of a covered character code: `FontRead((k - 32) * 8 + r)` (R115). -/
def fontRow (c : Config) (k r : Nat) : Byte := fontRead c ((k - Config.firstChar) * 8 + r)

/-- `fglyph(k)` (R115). -/
def fglyph (c : Config) (k : Nat) : Glyph :=
  { g0 := fontRow c k 0, g1 := fontRow c k 1, g2 := fontRow c k 2, g3 := fontRow c k 3,
    g4 := fontRow c k 4, g5 := fontRow c k 5, g6 := fontRow c k 6, g7 := fontRow c k 7 }

end Machine

end Sys2Proof
end

