-- ==== Sys2Proof/Machine/Ops.lean ====
section
/-! DEFINITION. The shared operations: the five port micro-operations (spec/40_pixelport.md rule R80), raising an error
and completing (spec/00_scope.md rule R17), the frame of every command, the loop of the pseudocode (R16), and taking the
next word from the command port (spec/30_encoding.md rule R61). -/

namespace Sys2Proof.Machine

/-- `log E` (R16): append an event to the port event trace. -/
def log (e : PortEvent) (s : State) : State := { s with trace := e :: s.trace }

/-- `MemRead(a, 1)` (R16). -/
def memRead (a : Nat) (s : State) : Byte := s.vram.read a

/-- `MemWrite(a, 1, v)` (R16). -/
def memWrite (a : Nat) (v : Byte) (s : State) : State := { s with vram := s.vram.write a v }

/-- `(old & ~m) | v` on bytes (R80). -/
def rmwByte (old m v : Byte) : Byte := (old &&& ~~~m) ||| v

/-- `port_setaddr(a)` (R80). Precondition: `a < SBC`. -/
def portSetaddr (a : Nat) (s : State) : State := log (.sa a) { s with addr := BitVec.ofNat 16 a }

/-- `port_setstep(n)` (R80). -/
def portSetstep (n : BitVec 1) (s : State) : State := log (.ss n) { s with stepReg := n }

/-- `port_write(v)` (R80): write at `ADDR`, then step it. Precondition: `ADDR < SBC`. -/
def portWrite (v : Byte) (s : State) : State :=
  let written := log (.wr s.addr.toNat v) (memWrite s.addr.toNat v s)
  { written with addr := s.addr + s.stepReg.setWidth 16 }

/-- `port_rmw(m, v)` (R80). Preconditions: `ADDR < SBC`, `STEP = 0`. -/
def portRmw (m v : Byte) (s : State) : State :=
  log (.rmw s.addr.toNat m v) (memWrite s.addr.toNat (rmwByte (memRead s.addr.toNat s) m v) s)

/-- `port_adv(d)` (R80), the line stepper's own advance. Precondition: `ADDR + d < SBC`. -/
def portAdv (d : Nat) (s : State) : State := log (.adv d) { s with addr := s.addr + BitVec.ofNat 16 d }

/-- Taking an error, the core's only exception (R17, R129): `ERR` takes the code and nothing else changes. There is no
return from it: the next command executes from the unchanged state (R130). -/
def raise (k : ErrorKind) (s : State) : State := { s with err := k.code }

/-- The last action of a command that does not raise (R17): `ERR <- 0`. -/
def complete (s : State) : State := { s with err := okCode }

/-- A command (R17): its check part, then either `raise`, or the whole effect part and `ERR <- 0`. `reach` is the highest
`VRAM` address the effect part programs or accesses, none when it touches none: an address that does not exist (R46)
faults before the first effect. -/
def command (check : Option ErrorKind) (reach : Option Nat) (effect : State → State) (s : State) : Result :=
  match check with
  | some k => .next (raise k s)
  | none =>
    if reach.all (fun a => decide (a < s.cfg.surfaceBytes)) then .next (complete (effect s))
    else .fault .vramAddress

/-- `for v in a .. a + count - 1` (R16): the body for each value in ascending order. -/
def forUp (body : Nat → State → State) : Nat → Nat → State → State
  | _, 0, s => s
  | a, count + 1, s => forUp body (a + 1) count (body a s)

/-- The effect part of SETPIXEL for one pixel (R95), which the glyph body uses for each cell (R114). -/
def pixelEffect (x y : Nat) (color : Byte) (s : State) : State :=
  portRmw (pmask x) (pval x color) (portSetstep 0#1 (portSetaddr (off s.cfg x y) s))

/-- `glyph_body` (R114): the 64 cells in row-major order, each programmed and read-modify-written on its own. -/
def glyphBody (g : Glyph) (x y : Nat) (fg bg : Byte) (s : State) : State :=
  forUp (fun r => forUp (fun c => pixelEffect (x + c) (y + r) (gcol g r c fg bg)) 0 8) 0 8 s

/-- A word that is no command (R66, R126): IllegalCommand is raised before any operand is interpreted. -/
def illegalCommand (s : State) : Result := .next (raise .illegalCommand s)

/-- The host presents one more word at the command port, after those it has already presented (R61). -/
def State.issue (w : CommandWord) (s : State) : State := { s with commands := s.commands ++ [w] }

/-- The next word at the command port and the state without it (R61); none when the core is idle (R141). -/
def fetch (s : State) : Option (CommandWord × State) :=
  match s.commands with
  | [] => none
  | w :: rest => some (w, { s with commands := rest })

/-- The result the host receives for the most recent command: the value of `ERR` (R23, R61). -/
def State.result (s : State) : BitVec 3 := s.err

end Sys2Proof.Machine
end

