-- ==== Sys2Proof/Machine/FrameBuffer.lean ====
section
/-! DEFINITION. The nibble addresser's two commands (spec/41_framebuffer.md rules R94, R95). -/

namespace Sys2Proof.Machine

/-- The effect part of CLEAR (R94): address 0, step 1, then one write per byte. -/
def clearEffect (color : Byte) (s : State) : State :=
  forUp (fun _ => portWrite (fill color)) 0 s.cfg.surfaceBytes (portSetstep 1#1 (portSetaddr 0 s))

/-- CLEAR `color` (R94). -/
def execClear (color : Byte) (s : State) : Result :=
  command (firstError [(decide (¬ legalColor color), .invalidColor)])
    (some (s.cfg.surfaceBytes - 1)) (clearEffect color) s

/-- SETPIXEL `x, y, color` (R95): the coordinate is checked, not the offset; then the colour. -/
def execSetpixel (x y : Half) (color : Byte) (s : State) : Result :=
  command
    (firstError [(decide (¬ inRange s.cfg x.toNat y.toNat), .addressOutOfRange),
      (decide (¬ legalColor color), .invalidColor)])
    (some (off s.cfg x.toNat y.toNat)) (pixelEffect x.toNat y.toNat color) s

end Sys2Proof.Machine
end

