-- ==== Sys2Proof/Machine/GlyphRenderer.lean ====
section
/-! DEFINITION. The glyph rasterizer (spec/43_glyph_text.md rules R110, R114). -/

namespace Sys2Proof.Machine

/-- The 8×8 box of a glyph at an origin lies on the surface (R110). -/
abbrev boxInRange (c : Config) (x y : Nat) : Prop := x + 7 < c.width ∧ y + 7 < c.height

/-- The address of a glyph box's last cell, the highest the glyph body programs (R114). -/
def boxLast (c : Config) (x y : Nat) : Nat := off c (x + 7) (y + 7)

/-- DRAWGLYPH `g, x, y, fg, bg` (R110): the whole box, then both colours; then the glyph body. -/
def execDrawglyph (g : Glyph) (x y : Half) (fg bg : Byte) (s : State) : Result :=
  command
    (firstError [(decide (¬ boxInRange s.cfg x.toNat y.toNat), .addressOutOfRange),
      (decide (¬ (legalColor fg ∧ legalColor bg)), .invalidColor)])
    (some (boxLast s.cfg x.toNat y.toNat)) (glyphBody g x.toNat y.toNat fg bg) s

end Sys2Proof.Machine
end

