-- ==== Sys2Proof/Machine/LineDrawer.lean ====
section
/-! DEFINITION. The axis-aligned line stepper (spec/42_linedrawer.md rules R100 to R103). -/

namespace Sys2Proof.Machine

/-- The classes of a DRAWLINE request (R101). -/
inductive LineClass where
  | point
  | verticalAscending
  | verticalReversed
  | horizontalAscending
  | horizontalReversed
  | diagonal
deriving DecidableEq, Repr

/-- The class of a request by its four coordinates (R101). -/
def lineClass (x0 y0 x1 y1 : Nat) : LineClass :=
  if x0 = x1 then
    if y0 = y1 then .point else if y0 < y1 then .verticalAscending else .verticalReversed
  else if y0 = y1 then
    if x0 < x1 then .horizontalAscending else .horizontalReversed
  else .diagonal

/-- A request is supported: "(`x0 = x1` and `y0 <= y1`) or (`y0 = y1` and `x0 < x1`)" (R100, R101). -/
abbrev supportedLine (x0 y0 x1 y1 : Nat) : Prop := (x0 = x1 ∧ y0 ≤ y1) ∨ (y0 = y1 ∧ x0 < x1)

/-- One row of the vertical path (R102): the latched nibble at `ADDR`, then `RB` further if another row follows. -/
def verticalRow (m v : Byte) (y1 y : Nat) (s : State) : State :=
  if y < y1 then portAdv s.cfg.rowBytes (portRmw m v s) else portRmw m v s

/-- The vertical path (R102): mask and value latched once, the address programmed once. -/
def verticalPath (x0 y0 y1 : Nat) (color : Byte) (s : State) : State :=
  forUp (verticalRow (pmask x0) (pval x0 color) y1) y0 (y1 + 1 - y0)
    (portSetstep 0#1 (portSetaddr (off s.cfg x0 y0) s))

/-- One pixel of the horizontal path (R103): the address advances after an odd column when another pixel follows. -/
def horizontalPixel (color : Byte) (x1 x : Nat) (s : State) : State :=
  if x < x1 ∧ nib x = .lo then portAdv 1 (portRmw (pmask x) (pval x color) s)
  else portRmw (pmask x) (pval x color) s

/-- The horizontal path (R103). -/
def horizontalPath (x0 x1 y0 : Nat) (color : Byte) (s : State) : State :=
  forUp (horizontalPixel color x1) x0 (x1 + 1 - x0) (portSetstep 0#1 (portSetaddr (off s.cfg x0 y0) s))

/-- The effect part of DRAWLINE (R100): the vertical path when `x0 = x1`, else the horizontal path. -/
def lineEffect (x0 y0 x1 y1 : Nat) (color : Byte) (s : State) : State :=
  if x0 = x1 then verticalPath x0 y0 y1 color s else horizontalPath x0 x1 y0 color s

/-- DRAWLINE `x0, y0, x1, y1, color` (R100): coordinates, geometry, colour, in that order. -/
def execDrawline (x0 y0 x1 y1 : Half) (color : Byte) (s : State) : Result :=
  command
    (firstError
      [(decide (¬ (inRange s.cfg x0.toNat y0.toNat ∧ inRange s.cfg x1.toNat y1.toNat)), .addressOutOfRange),
       (decide (¬ supportedLine x0.toNat y0.toNat x1.toNat y1.toNat), .unsupportedGeometry),
       (decide (¬ legalColor color), .invalidColor)])
    (some (off s.cfg x1.toNat y1.toNat)) (lineEffect x0.toNat y0.toNat x1.toNat y1.toNat color) s

end Sys2Proof.Machine
end

