-- ==== Sys2Proof/Machine/PixelPort.lean ====
section
/-! DEFINITION. The pixel port's four commands (spec/40_pixelport.md rules R81 to R84). -/

namespace Sys2Proof.Machine

/-- SETADDR `a` (R81). -/
def execSetaddr (a : Half) (s : State) : Result :=
  command (firstError [(decide (s.cfg.surfaceBytes ≤ a.toNat), .addressOutOfRange)])
    (some a.toNat) (portSetaddr a.toNat) s

/-- SETSTEP `n` (R82): no check, no error. -/
def execSetstep (n : BitVec 1) (s : State) : Result :=
  command (firstError []) none (portSetstep n) s

/-- WRBYTE `v` (R83). -/
def execWrbyte (v : Byte) (s : State) : Result :=
  command (firstError [(decide (s.cfg.surfaceBytes ≤ s.addr.toNat), .addressOutOfRange)])
    (some s.addr.toNat) (portWrite v) s

/-- RMW `m, v` (R84): AddressOutOfRange before StepNotZero (R128). -/
def execRmw (m v : Byte) (s : State) : Result :=
  command
    (firstError [(decide (s.cfg.surfaceBytes ≤ s.addr.toNat), .addressOutOfRange),
      (decide (s.stepReg ≠ 0#1), .stepNotZero)])
    (some s.addr.toNat) (portRmw m v) s

end Sys2Proof.Machine
end

