-- ==== Sys2Proof/Machine/TextRenderer.lean ====
section
/-! DEFINITION. The text string composer (spec/43_glyph_text.md rules R113, R115). -/

namespace Sys2Proof.Machine

/-- What the scan of a string finds (R113): `n` characters that all pass before the sentinel, or the error of the first
character that fails. -/
inductive Scan where
  | clean (n : Nat)
  | raises (k : ErrorKind)
deriving DecidableEq, Repr

/-- The scan from character `n` on (R113): the sentinel `0x00` is tested first, then the range of the character's box,
then the coverage of its code. `fuel` bounds the characters looked at; `scanString` gives it so many that the bound is
never met (R150), and the answer there is the one the range test would give. -/
def scanFrom (c : Config) (p x y : Nat) : Nat → Nat → Scan
  | 0, _ => .raises .addressOutOfRange
  | fuel + 1, n =>
    if textRead c (p + n) = 0#8 then .clean n
    else if ¬ boxInRange c (x + Config.advance * n) y then .raises .addressOutOfRange
    else if ¬ covered (textRead c (p + n)).toNat then .raises .invalidCharacter
    else scanFrom c p x y fuel (n + 1)

/-- The scan of the whole string: it ends within `floor(W / 8) + 1` characters (R150). -/
def scanString (c : Config) (p x y : Nat) : Scan := scanFrom c p x y (c.width / 8 + 1) 0

/-- The error of a scan, if it ends in one. -/
def Scan.error? : Scan → Option ErrorKind
  | .clean _ => none
  | .raises k => some k

/-- The number of characters a clean scan counted. -/
def Scan.count : Scan → Nat
  | .clean n => n
  | .raises _ => 0

/-- The check part of DRAWSTRING (R113): the whole string first, then both colours. -/
def stringCheck (scan : Scan) (fg bg : Byte) : Option ErrorKind :=
  match scan.error? with
  | some k => some k
  | none => firstError [(decide (¬ (legalColor fg ∧ legalColor bg)), .invalidColor)]

/-- The highest address the effect part programs: the last cell of the last box, none for an empty string (R113). -/
def stringReach (c : Config) (x y n : Nat) : Option Nat :=
  if n = 0 then none else some (boxLast c (x + Config.advance * (n - 1)) y)

/-- Character `i` of the effect part of DRAWSTRING (R113). -/
def stringChar (p x y : Nat) (fg bg : Byte) (i : Nat) (s : State) : State :=
  glyphBody (fglyph s.cfg (textRead s.cfg (p + i)).toNat) (x + Config.advance * i) y fg bg s

/-- DRAWSTRING `p, x, y, fg, bg` (R113). -/
def execDrawstring (p x y : Half) (fg bg : Byte) (s : State) : Result :=
  let scan := scanString s.cfg p.toNat x.toNat y.toNat
  command (stringCheck scan fg bg) (stringReach s.cfg x.toNat y.toNat scan.count)
    (forUp (stringChar p.toNat x.toNat y.toNat fg bg) 0 scan.count) s

end Sys2Proof.Machine
end

