-- ==== Sys2Proof/Machine/Dispatch.lean ====
section
/-! DEFINITION. The dispatch of a decoded command to its meaning: one arm per row of spec/opcode_table.json. -/

namespace Sys2Proof.Machine

def exec (i : Instr) (s : State) : Host.Outcome State Fault Refusal :=
  match i with
  -- the pixel port, spec/40_pixelport.md
  | .setaddr a => Sys2Proof.Machine.execSetaddr a s
  | .setstep n => Sys2Proof.Machine.execSetstep n s
  | .wrbyte v => Sys2Proof.Machine.execWrbyte v s
  | .rmw m v => Sys2Proof.Machine.execRmw m v s
  -- the nibble addresser, spec/41_framebuffer.md
  | .clear color => Sys2Proof.Machine.execClear color s
  | .setpixel x y color => Sys2Proof.Machine.execSetpixel x y color s
  -- the line stepper, spec/42_linedrawer.md
  | .drawline x0 y0 x1 y1 color => Sys2Proof.Machine.execDrawline x0 y0 x1 y1 color s
  -- the glyph rasterizer and the text string composer, spec/43_glyph_text.md
  | .drawglyph g x y fg bg => Sys2Proof.Machine.execDrawglyph g x y fg bg s
  | .drawstring p x y fg bg => Sys2Proof.Machine.execDrawstring p x y fg bg s

end Sys2Proof.Machine
end

