-- ==== Sys2Proof/Machine/Step.lean ====
section
/-! DEFINITION. One step of the core (spec/00_scope.md rule R11): the next word of the command port is decoded and run to
completion. -/

namespace Sys2Proof.Machine

/-- One step. With no word at the command port the core is idle and keeps all its state (R133, R141). A command runs its
meaning; an illegal word raises IllegalCommand (R66). A configuration that is none of this hardware is refused (R7). -/
def step (s : State) : Host.Outcome State Fault Refusal :=
  if s.cfg.wf then
    match fetch s with
    | none => .next s
    | some (w, rest) =>
      match decode w with
      | .command i => exec i rest
      | .illegal _ => illegalCommand rest
  else .refused .illFormedConfig

/-- `s` with the instruction whose bits are `w` presented at the command port ahead of every other word. -/
def State.withFetchWord (s : State) (nbits w : Nat) : State :=
  { s with commands := tableWord nbits w :: s.commands }

end Sys2Proof.Machine
end

