-- ==== Sys2Proof/Machine/Assembler.lean ====
section
/-! DEFINITION. The assembler of spec/30_encoding.md rule R68: one line of text to the word it builds, or an assembly
error. There are no labels, directives, pseudo-instructions or macros (R69). -/

namespace Sys2Proof.Assembler

/-- A token of a line: the mnemonic or another word, a number, or a punctuation mark. -/
inductive Token where
  | word (letters : List Char)
  | number (n : Nat)
  | comma
  | openBrace
  | closeBrace
deriving DecidableEq, Repr

/-- The value of a digit of the given base (10 or 16), either case. -/
def digit (base : Nat) (c : Char) : Option Nat :=
  let n := c.toNat
  let v :=
    if 48 ≤ n ∧ n ≤ 57 then n - 48
    else if 65 ≤ n ∧ n ≤ 70 then n - 55
    else if 97 ≤ n ∧ n ≤ 102 then n - 87
    else 16
  if v < base then some v else none

/-- Read the digits left, on top of the value read so far. -/
def digits (base : Nat) : Nat → List Char → Option Nat
  | acc, [] => some acc
  | acc, c :: rest =>
    match digit base c with
    | some d => digits base (acc * base + d) rest
    | none => none

/-- A run of letters and digits: "numbers are decimal, or hexadecimal with the prefix `0x`" (R68); anything that does
not begin with a digit is a word. -/
def chunk : List Char → Option Token
  | '0' :: 'x' :: c :: rest => (digits 16 0 (c :: rest)).map .number
  | [] => none
  | c :: rest =>
    if (digit 10 c).isSome then (digits 10 0 (c :: rest)).map .number else some (.word (c :: rest))

/-- A character of a word or of a number. -/
def isLetterOrDigit (c : Char) : Bool :=
  let n := c.toNat
  decide (48 ≤ n ∧ n ≤ 57) || decide (65 ≤ n ∧ n ≤ 90) || decide (97 ≤ n ∧ n ≤ 122)

/-- The punctuation marks of a line: the comma and the braces of the glyph operand (character codes 123 and 125). -/
def punctuation (c : Char) : Option Token :=
  if c.toNat = 44 then some .comma
  else if c.toNat = 123 then some .openBrace
  else if c.toNat = 125 then some .closeBrace
  else none

/-- The tokens of a line; `run` holds the letters and digits read since the last break, the latest first. -/
def tokenize (run : List Char) : List Char → Option (List Token)
  | [] => if run = [] then some [] else (chunk run.reverse).map ([·])
  | c :: rest =>
    if isLetterOrDigit c then tokenize (c :: run) rest
    else
      match tokenize [] rest with
      | none => none
      | some ts =>
        let after := if c = ' ' then some ts else (punctuation c).map (· :: ts)
        if run = [] then after
        else
          match chunk run.reverse, after with
          | some t, some us => some (t :: us)
          | _, _ => none

/-- Numbers separated by commas. -/
def numbers : List Token → Option (List Nat)
  | [.number n] => some [n]
  | .number n :: .comma :: rest => (numbers rest).map (n :: ·)
  | _ => none

/-- The operands of a line in source order: eight numbers in braces stand first where the command takes a glyph (R68). -/
def operandsOf (m : Mnemonic) (ts : List Token) : Option (List Nat) :=
  match m, ts with
  | .drawglyph, .openBrace :: .number g0 :: .comma :: .number g1 :: .comma :: .number g2 :: .comma :: .number g3 ::
      .comma :: .number g4 :: .comma :: .number g5 :: .comma :: .number g6 :: .comma :: .number g7 :: .closeBrace ::
      .comma :: rest => (numbers rest).map ([g0, g1, g2, g3, g4, g5, g6, g7] ++ ·)
  | .drawglyph, _ => none
  | _, _ => numbers ts

/-- The mnemonics of R68. -/
def mnemonicOf (letters : List Char) : Option Mnemonic :=
  if letters = ['S', 'E', 'T', 'A', 'D', 'D', 'R'] then some .setaddr
  else if letters = ['S', 'E', 'T', 'S', 'T', 'E', 'P'] then some .setstep
  else if letters = ['W', 'R', 'B', 'Y', 'T', 'E'] then some .wrbyte
  else if letters = ['R', 'M', 'W'] then some .rmw
  else if letters = ['C', 'L', 'E', 'A', 'R'] then some .clear
  else if letters = ['S', 'E', 'T', 'P', 'I', 'X', 'E', 'L'] then some .setpixel
  else if letters = ['D', 'R', 'A', 'W', 'L', 'I', 'N', 'E'] then some .drawline
  else if letters = ['D', 'R', 'A', 'W', 'G', 'L', 'Y', 'P', 'H'] then some .drawglyph
  else if letters = ['D', 'R', 'A', 'W', 'S', 'T', 'R', 'I', 'N', 'G'] then some .drawstring
  else none

/-- The source command of a line of tokens. -/
def sourceOf : List Token → Option SourceCommand
  | .word letters :: rest =>
    match mnemonicOf letters with
    | none => none
    | some m => (operandsOf m rest).map fun ops => { mnemonic := m, operands := ops }
  | _ => none

/-- The command of a source command: no word is produced unless every operand fits its field (R68). -/
def commandOf (c : SourceCommand) : Option Instr :=
  if c.wf then
    match c.mnemonic, c.operands with
    | .setaddr, [a] => some (.setaddr (BitVec.ofNat 16 a))
    | .setstep, [n] => some (.setstep (BitVec.ofNat 1 n))
    | .wrbyte, [v] => some (.wrbyte (BitVec.ofNat 8 v))
    | .rmw, [m, v] => some (.rmw (BitVec.ofNat 8 m) (BitVec.ofNat 8 v))
    | .clear, [color] => some (.clear (BitVec.ofNat 8 color))
    | .setpixel, [x, y, color] =>
      some (.setpixel (BitVec.ofNat 16 x) (BitVec.ofNat 16 y) (BitVec.ofNat 8 color))
    | .drawline, [x0, y0, x1, y1, color] =>
      some (.drawline (BitVec.ofNat 16 x0) (BitVec.ofNat 16 y0) (BitVec.ofNat 16 x1) (BitVec.ofNat 16 y1)
        (BitVec.ofNat 8 color))
    | .drawglyph, [g0, g1, g2, g3, g4, g5, g6, g7, x, y, fg, bg] =>
      some (.drawglyph
        { g0 := BitVec.ofNat 8 g0, g1 := BitVec.ofNat 8 g1, g2 := BitVec.ofNat 8 g2, g3 := BitVec.ofNat 8 g3,
          g4 := BitVec.ofNat 8 g4, g5 := BitVec.ofNat 8 g5, g6 := BitVec.ofNat 8 g6, g7 := BitVec.ofNat 8 g7 }
        (BitVec.ofNat 16 x) (BitVec.ofNat 16 y) (BitVec.ofNat 8 fg) (BitVec.ofNat 8 bg))
    | .drawstring, [p, x, y, fg, bg] =>
      some (.drawstring (BitVec.ofNat 16 p) (BitVec.ofNat 16 x) (BitVec.ofNat 16 y) (BitVec.ofNat 8 fg)
        (BitVec.ofNat 8 bg))
    | _, _ => none
  else none

/-- The source form of a command (R68): its mnemonic and its operands in the assembler's order. -/
def disassemble : Instr → SourceCommand
  | .setaddr a => ⟨.setaddr, [a.toNat]⟩
  | .setstep n => ⟨.setstep, [n.toNat]⟩
  | .wrbyte v => ⟨.wrbyte, [v.toNat]⟩
  | .rmw m v => ⟨.rmw, [m.toNat, v.toNat]⟩
  | .clear color => ⟨.clear, [color.toNat]⟩
  | .setpixel x y color => ⟨.setpixel, [x.toNat, y.toNat, color.toNat]⟩
  | .drawline x0 y0 x1 y1 color => ⟨.drawline, [x0.toNat, y0.toNat, x1.toNat, y1.toNat, color.toNat]⟩
  | .drawglyph g x y fg bg =>
    ⟨.drawglyph, [g.g0.toNat, g.g1.toNat, g.g2.toNat, g.g3.toNat, g.g4.toNat, g.g5.toNat, g.g6.toNat, g.g7.toNat,
      x.toNat, y.toNat, fg.toNat, bg.toNat]⟩
  | .drawstring p x y fg bg => ⟨.drawstring, [p.toNat, x.toNat, y.toNat, fg.toNat, bg.toNat]⟩

/-- What a line of a program is. -/
inductive Line where
  /-- A blank line, or a comment: "a line beginning with `;`" (R68). -/
  | comment
  /-- A command and the word it builds. -/
  | command (word : CommandWord)
  /-- An assembly error: no word is produced. -/
  | error
deriving DecidableEq, Repr

/-- Assemble one line (R68). -/
def assembleLine (line : List Char) : Line :=
  match line with
  | ';' :: _ => .comment
  | _ =>
    match tokenize [] line with
    | none => .error
    | some [] => .comment
    | some ts =>
      match (sourceOf ts).bind commandOf with
      | some i => .command (encode i)
      | none => .error

/-- Assemble a program: the words of its lines in order (R25: a finite list of command words), none if a line is in
error. -/
def assemble : List (List Char) → Option (List CommandWord)
  | [] => some []
  | line :: rest =>
    match assembleLine line with
    | .comment => assemble rest
    | .command w => (assemble rest).map (w :: ·)
    | .error => none

end Sys2Proof.Assembler
end

