-- ==== Sys2Proof/Safety.lean ====
section
/-! DEFINITION. What counts as a safe state and a safe run, in the terms the statements use: the invariants of every
reachable state (spec/10_state.md rule R33), reachability, sequences of commands, the replay of the port event trace
(spec/40_pixelport.md rule R80), and the strings a DRAWSTRING accepts (spec/43_glyph_text.md rule R113). -/

namespace Sys2Proof.Machine

/-- `STEP` as the trace tells it, newest event first: the value of the latest `SS`, 0 if there is none (R34). -/
def stepAfter : List PortEvent → BitVec 1
  | [] => 0#1
  | .ss n :: _ => n
  | .sa _ :: rest | .wr _ _ :: rest | .rmw _ _ _ :: rest | .adv _ :: rest => stepAfter rest

/-- The trace, newest event first, shows why `ADDR` is one past `last`: but for later `SS` events, its latest event is a
write at `last` with `STEP = 1` (R33 (e): a WRBYTE there, or a CLEAR, whose last write is there). -/
def steppedPast (last : Nat) : List PortEvent → Bool
  | .ss _ :: rest => steppedPast last rest
  | .wr a _ :: rest => decide (a = last ∧ stepAfter rest = 1#1)
  | _ => false

/-- The invariants of R33. That `STEP` is 0 or 1, and each byte 0 to 255, holds by their types. -/
structure Inv (s : State) : Prop where
  /-- The configuration is one of this hardware (R7). -/
  cfgWf : s.cfg.wf = true
  /-- (a) `0 <= ADDR <= SBC`. -/
  addrLe : s.addr.toNat ≤ s.cfg.surfaceBytes
  /-- (c) `0 <= ERR <= 6`. -/
  errLe : s.err.toNat ≤ 6
  /-- (d) `VRAM` has the addresses `0 .. SBC - 1`; its list is in canonical form. -/
  vramWf : s.vram.wfSized s.cfg.surfaceBytes = true
  /-- `STEP` holds what the trace says was last written to it. -/
  stepTraced : s.stepReg = stepAfter s.trace
  /-- (e) `ADDR = SBC` only after a stepped write to the last byte. -/
  pastEnd : s.addr.toNat = s.cfg.surfaceBytes → steppedPast (s.cfg.surfaceBytes - 1) s.trace = true

/-- The states the core can be in: reset with some configuration and some initial `VRAM` (R34), and from there whatever
words the host presents (R61) and whatever steps the core makes. -/
inductive Reachable : State → Prop where
  | reset (cfg : Config) (vram : Memory) (hc : cfg.wf = true) (hv : vram.wfSized cfg.surfaceBytes = true) :
      Reachable (State.resetWith cfg vram)
  | issue (w : CommandWord) (s : State) (h : Reachable s) : Reachable (s.issue w)
  | step (s t : State) (h : Reachable s) (hs : step s = .next t) : Reachable t

/-- Commands one after another, each from the state the one before it left (R11, R25); a command that raises does not
stop the ones after it. -/
def execAll : List Instr → State → Result
  | [], s => .next s
  | i :: rest, s =>
    match exec i s with
    | .next t => execAll rest t
    | .fault r => .fault r
    | .refused r => .refused r

/-- The results the host receives for a sequence of commands, in order (R61). -/
def results : List Instr → State → List (BitVec 3)
  | [], _ => []
  | i :: rest, s =>
    match exec i s with
    | .next t => t.result :: results rest t
    | .fault _ | .refused _ => []

/-- "Nothing went wrong" is a property of the sequence of results, not of a sticky bit (R134). -/
def safeRun (is : List Instr) (s : State) : Prop := results is s = is.map fun _ => okCode

/-- A composite command (R18): one whose effect part is a sequence of port micro-operations. -/
def isComposite : Instr → Bool
  | .setaddr _ | .setstep _ | .wrbyte _ | .rmw _ _ => false
  | .clear _ | .setpixel _ _ _ | .drawline _ _ _ _ _ | .drawglyph _ _ _ _ _ | .drawstring _ _ _ _ _ => true

/-- What the port events act on (R24, R80), with `ADDR` as a natural number: no register width hides a wrap. -/
structure PortView where
  addr : Nat
  stepReg : BitVec 1
  vram : Memory
deriving DecidableEq, Repr

/-- The port as a state holds it. -/
def State.port (s : State) : PortView := { addr := s.addr.toNat, stepReg := s.stepReg, vram := s.vram }

/-- One event replayed (R31, R80): none if the micro-operation's precondition does not hold, or if the event does not
name the address in `ADDR`. -/
def PortView.replayOne (size : Nat) (p : PortView) : PortEvent → Option PortView
  | .sa a => if a < size then some { p with addr := a } else none
  | .ss n => some { p with stepReg := n }
  | .wr a v =>
    if a = p.addr ∧ a < size then some { p with addr := a + p.stepReg.toNat, vram := p.vram.write a v } else none
  | .rmw a m v =>
    if a = p.addr ∧ a < size ∧ p.stepReg = 0#1 then
      some { p with vram := p.vram.write a ((p.vram.read a &&& ~~~m) ||| v) }
    else none
  | .adv d => if p.addr + d < size then some { p with addr := p.addr + d } else none

/-- Events replayed in order, the oldest first. -/
def PortView.replay (size : Nat) : List PortEvent → PortView → Option PortView
  | [], p => some p
  | e :: rest, p => (p.replayOne size e).bind (PortView.replay size rest)

/-- Character `k` of the string at `p` passes the scan of a DRAWSTRING at `(x, y)` (R113). -/
abbrev charPasses (c : Config) (p x y k : Nat) : Prop :=
  textRead c (p + k) ≠ 0#8 ∧ (x + 8 * k + 7 < c.width ∧ y + 7 < c.height) ∧
    (32 ≤ (textRead c (p + k)).toNat ∧ (textRead c (p + k)).toNat ≤ 95)

/-- The string at `p` is `n` characters that all pass, then the sentinel (R113). -/
abbrev stringOf (c : Config) (p x y n : Nat) : Prop :=
  (∀ k, k < n → charPasses c p x y k) ∧ textRead c (p + n) = 0#8

/-- The first character of the string at `p` that fails the scan is character `n` (R113). -/
abbrev stringFailsAt (c : Config) (p x y n : Nat) : Prop :=
  (∀ k, k < n → charPasses c p x y k) ∧ textRead c (p + n) ≠ 0#8 ∧ ¬ charPasses c p x y n

/-- What a successful command leaves beside `VRAM`: `ADDR`, `STEP`, `ERR = 0`, the events it appended to `TRACE`, and
the parameters and the command port as they were. -/
structure Leaves (s t : State) (addr : Nat) (stepReg : BitVec 1) (evs : List PortEvent) : Prop where
  addrIs : t.addr.toNat = addr
  stepIs : t.stepReg = stepReg
  errIs : t.err = 0#3
  eventsAre : t.events = s.events ++ evs
  cfgSame : t.cfg = s.cfg
  commandsSame : t.commands = s.commands

/-- The events of one pixel set at `(x, y)` (R95). -/
def pixelEvents (c : Config) (x y : Nat) (color : Byte) : List PortEvent :=
  [.sa (off c x y), .ss 0#1, .rmw (off c x y) (pmask x) (pval x color)]

/-- The events of a glyph body (R114): 64 pixel sets in row-major order. -/
def glyphEvents (c : Config) (g : Glyph) (x y : Nat) (fg bg : Byte) : List PortEvent :=
  (List.range 8).flatMap fun r => (List.range 8).flatMap fun k =>
    pixelEvents c (x + k) (y + r) (gcol g r k fg bg)

/-- A coordinate lies in the 8×8 box whose top-left cell is `(x, y)`. -/
abbrev inBox (x y px py : Nat) : Prop := (x ≤ px ∧ px ≤ x + 7) ∧ y ≤ py ∧ py ≤ y + 7

end Sys2Proof.Machine
end

