-- ==== Sys2Proof/Certificates/Slice0/Obligations.lean ====
section
/-! DEFINITION. The statements of this model, from the numbered rules of spec/. Where a statement needs a state to be one
the core can be in, its premise is `Inv`, which `InvariantKeptByEveryStep` and `ReachableStatesMeetInvariant` state. -/

open Sys2Proof Sys2Proof.Machine

/-! ## Encoding (spec/30_encoding.md) -/

/-- R63, R65, R70: no bit of an operand is dropped. Every term of `Instr` is well formed (its operands have the widths of
their fields), so this covers every command with every operand. -/
def Obligations.DecodeOfEncodeIsTheCommand : Prop :=
  ∀ i : Instr, decode (encode i) = .command i

/-- R62, R66, R70: a command has one word, since every bit outside its fields is checked. -/
def Obligations.EncodeOfDecodedWordIsTheWord : Prop :=
  ∀ (cw : CommandWord) (i : Instr), decode cw = .command i → encode i = cw

/-- R70: the word decodes to the row for which `cw & mask = match`; at most one row matches; a word that matches none is
illegal. -/
def Obligations.DecodeAgreesWithOpcodeTable : Prop :=
  ∀ cw : CommandWord,
    (∀ m : Mnemonic, (∃ i, decode cw = .command i ∧ i.mnemonic = m) ↔
      ∃ row ∈ opcodeTable, row.mnemonic = m ∧ row.matches cw = true) ∧
    (∀ row ∈ opcodeTable, ∀ row' ∈ opcodeTable, row.matches cw = true → row'.matches cw = true → row = row') ∧
    ((∀ row ∈ opcodeTable, row.matches cw = false) ↔ ∃ why, decode cw = .illegal why)

/-- R60, R67: the decoder on bytes reads the word whose byte `k` is `cw[8k+7 : 8k]`, and no other number of bytes. -/
def Obligations.BytesOfAWordDecodeAsTheWord : Prop :=
  (∀ cw : CommandWord, decodeBytes (wordBytes cw) = decode cw) ∧
  ∀ bytes : List Byte, bytes.length ≠ 16 → ∃ why, decodeBytes bytes = .illegal why

/-- R71, the nine worked encodings: the word, its sixteen bytes and the text it is assembled from. -/
def Obligations.WorkedEncodings : Prop :=
  ∀ row ∈
    ([ ("SETADDR 38399".toList, 0x95FF01#128, Instr.setaddr 38399#16,
        [0x01, 0xFF, 0x95, 0, 0, 0, 0, 0, 0, 0, 0, 0, 0, 0, 0, 0]),
       ("SETSTEP 1".toList, 0x102#128, .setstep 1#1,
        [0x02, 0x01, 0, 0, 0, 0, 0, 0, 0, 0, 0, 0, 0, 0, 0, 0]),
       ("WRBYTE 0x77".toList, 0x7703#128, .wrbyte 0x77#8,
        [0x03, 0x77, 0, 0, 0, 0, 0, 0, 0, 0, 0, 0, 0, 0, 0, 0]),
       ("RMW 0xF0, 0x70".toList, 0x70F004#128, .rmw 0xF0#8 0x70#8,
        [0x04, 0xF0, 0x70, 0, 0, 0, 0, 0, 0, 0, 0, 0, 0, 0, 0, 0]),
       ("CLEAR 0".toList, 0x10#128, .clear 0#8,
        [0x10, 0, 0, 0, 0, 0, 0, 0, 0, 0, 0, 0, 0, 0, 0, 0]),
       ("SETPIXEL 5, 2, 7".toList, 0x70002000511#128, .setpixel 5#16 2#16 7#8,
        [0x11, 0x05, 0x00, 0x02, 0x00, 0x07, 0, 0, 0, 0, 0, 0, 0, 0, 0, 0]),
       ("DRAWLINE 1, 0, 1, 239, 7".toList, 0x700EF00010000000120#128, .drawline 1#16 0#16 1#16 239#16 7#8,
        [0x20, 0x01, 0x00, 0x00, 0x00, 0x01, 0x00, 0xEF, 0x00, 0x07, 0, 0, 0, 0, 0, 0]),
       (("DRAWGLYPH ".toList ++ [Char.ofNat 123] ++ "0x66,0x66,0x66,0x7E,0x66,0x66,0x66,0x00".toList ++
          [Char.ofNat 125] ++ ", 8, 16, 15, 1".toList),
        0x6666667E666666010F0010000830#128,
        .drawglyph ⟨0x66#8, 0x66#8, 0x66#8, 0x7E#8, 0x66#8, 0x66#8, 0x66#8, 0x00#8⟩ 8#16 16#16 15#8 1#8,
        [0x30, 0x08, 0x00, 0x10, 0x00, 0x0F, 0x01, 0x66, 0x66, 0x66, 0x7E, 0x66, 0x66, 0x66, 0x00, 0x00]),
       ("DRAWSTRING 0x0200, 8, 16, 15, 1".toList, 0x10F00100008020031#128, .drawstring 0x200#16 8#16 16#16 15#8 1#8,
        [0x31, 0x00, 0x02, 0x08, 0x00, 0x10, 0x00, 0x0F, 0x01, 0, 0, 0, 0, 0, 0, 0]) ] :
      List (List Char × CommandWord × Instr × List Byte)),
    encode row.2.2.1 = row.2.1 ∧ decode row.2.1 = .command row.2.2.1 ∧ wordBytes row.2.1 = row.2.2.2 ∧
      Assembler.assembleLine row.1 = .command row.2.1

/-- R68: each command has a source form that assembles to it; a source command whose operands do not fit their fields, or
are not as many as the fields, produces no word; every other one is the source form of the command it builds. -/
def Obligations.AssemblerBuildsExactlyTheFittingCommands : Prop :=
  (∀ i : Instr, Assembler.commandOf (Assembler.disassemble i) = some i) ∧
  (∀ c : SourceCommand, c.wf = false → Assembler.commandOf c = none) ∧
  ∀ c : SourceCommand, c.wf = true → ∃ i, Assembler.commandOf c = some i ∧ Assembler.disassemble i = c

/-! ## Reset, the command port and the step -/

/-- R34: the reset values, for every configuration and every initial `VRAM`. -/
def Obligations.ResetLeavesTheStatedValues : Prop :=
  ∀ (cfg : Config) (vram : Memory),
    let s := State.resetWith cfg vram
    s.addr = 0#16 ∧ s.stepReg = 0#1 ∧ s.err = 0#3 ∧ s.events = [] ∧ s.vram = vram ∧ s.cfg = cfg ∧ s.commands = []

/-- The invariants of R33 hold after reset, for every configuration of the hardware and every initial `VRAM`, and so for
`State.reset`, whose configuration and contents are the model's choice (notes/assumptions/1.md and 2.md). -/
def Obligations.ResetMeetsInvariant : Prop :=
  (∀ (cfg : Config) (vram : Memory), cfg.wf = true → vram.wfSized cfg.surfaceBytes = true →
    Inv (State.resetWith cfg vram)) ∧
  Inv State.reset

/-- Every step from every state that meets the invariants of R33 leaves a state that meets them. -/
def Obligations.InvariantKeptByEveryStep : Prop :=
  ∀ s t : State, Inv s → step s = .next t → Inv t

/-- R33: the invariants of every reachable state. -/
def Obligations.ReachableStatesMeetInvariant : Prop :=
  ∀ s : State, Reachable s → Inv s

/-- R61, R70: a step runs the command the next word of the command port decodes to, from the state without that word. The
list of words at the port is the model's own (notes/assumptions/4.md). -/
def Obligations.StepRunsTheDecodedCommand : Prop :=
  ∀ (s : State) (w : CommandWord) (rest : List CommandWord) (i : Instr),
    s.cfg.wf = true → s.commands = w :: rest → decode w = .command i →
    step s = exec i { s with commands := rest }

/-- R66, R126: a word that matches no row of the opcode table raises IllegalCommand: `ERR <- 6`, no other state of the spec
changes. That the word is taken off the command port is the model's convention (notes/assumptions/4.md). -/
def Obligations.IllegalWordRaisesIllegalCommand : Prop :=
  ∀ (s : State) (w : CommandWord) (rest : List CommandWord),
    s.cfg.wf = true → s.commands = w :: rest → (∀ row ∈ opcodeTable, row.matches w = false) →
    step s = .next { s with err := 6#3, commands := rest }

/-- The illegal words R66 names: every opcode byte but the nine of R64 (`0x00` and `0xFF` among them), a SETSTEP whose
byte 1 is 2 or more, a DRAWGLYPH whose byte 15 is not 0. -/
def Obligations.NamedIllegalWordsAreIllegal : Prop :=
  ∀ w : CommandWord,
    (wordByte w 0 ∉ [0x01#8, 0x02#8, 0x03#8, 0x04#8, 0x10#8, 0x11#8, 0x20#8, 0x30#8, 0x31#8] →
      decode w = .illegal (.undefinedOpcode (wordByte w 0))) ∧
    (wordByte w 0 = 0x02#8 → 2 ≤ (wordByte w 1).toNat → decode w = .illegal (.reservedBit .setstep)) ∧
    (wordByte w 0 = 0x30#8 → wordByte w 15 ≠ 0#8 → decode w = .illegal (.reservedBit .drawglyph))

/-- R133, R141: with no word at the command port the core is idle and keeps all its state. That an idle core takes steps is
the model's convention (notes/assumptions/4.md). -/
def Obligations.IdleCoreKeepsItsState : Prop :=
  ∀ s : State, s.cfg.wf = true → s.commands = [] → step s = .next s

/-- R7: a configuration that breaks a constraint is refused. R7 does not say when a model refuses it: that every step does,
whatever the rest of the state, is the model's choice (notes/assumptions/5.md). -/
def Obligations.ConfigurationOutsideR7IsRefused : Prop :=
  ∀ s : State,
    ¬ (s.cfg.width % 2 = 0 ∧ 2 ≤ s.cfg.width ∧ s.cfg.width ≤ 65536 ∧ 1 ≤ s.cfg.height ∧ s.cfg.height ≤ 65536 ∧
      s.cfg.width / 2 * s.cfg.height ≤ 65535) →
    step s = .refused .illFormedConfig

/-- R134, R150: from every state with a configuration of the hardware a step answers a next state: the core never halts,
hangs or reaches a `VRAM` address that does not exist. -/
def Obligations.EveryStepAnswersANextState : Prop :=
  ∀ s : State, s.cfg.wf = true → ∃ t, step s = .next t

/-- R7, R50, R144: no step changes `W`, `H`, `FONT` or `TEXT`. That a command leaves the list of words at the command port
alone, and a step takes its first word and no other (R61: one word at a time), is the model's convention
(notes/assumptions/4.md). -/
def Obligations.ParametersNeverChange : Prop :=
  (∀ (i : Instr) (s t : State), exec i s = .next t → t.cfg = s.cfg ∧ t.commands = s.commands) ∧
  ∀ s t : State, step s = .next t → t.cfg = s.cfg ∧ t.commands = s.commands.tail

/-! ## Errors (spec/60_exceptions.md) -/

/-- R129: the state after a raising command equals the state before it except for `ERR`. -/
def Obligations.ErrorChangesNothingButErr : Prop :=
  ∀ (i : Instr) (s t : State), exec i s = .next t → t.err ≠ 0#3 → t = { s with err := t.err }

/-- R134: the same command from the state a raising command left raises the same error again. -/
def Obligations.FailedCommandFailsAgain : Prop :=
  ∀ (i : Instr) (s t : State), exec i s = .next t → t.err ≠ 0#3 → exec i t = .next t

/-- R120: the result is a function of the command, `W`, `H`, `ADDR`, `STEP` and `TEXT`; it does not depend on `VRAM`,
`FONT`, `ERR` or what came before. -/
def Obligations.ResultIgnoresVramFontAndErr : Prop :=
  ∀ (i : Instr) (s s' t t' : State),
    s.addr = s'.addr → s.stepReg = s'.stepReg → s.cfg.width = s'.cfg.width → s.cfg.height = s'.cfg.height →
    s.cfg.text = s'.cfg.text → exec i s = .next t → exec i s' = .next t' → t.err = t'.err

/-- R121: the causes of AddressOutOfRange, exhaustively; nothing but the code is recorded. -/
def Obligations.AddressOutOfRangeCauses : Prop :=
  ∀ (i : Instr) (s t : State), exec i s = .next t →
    (t.err = 1#3 → t = { s with err := 1#3 }) ∧
    (t.err = 1#3 ↔
      match i with
      | .setaddr a => s.cfg.surfaceBytes ≤ a.toNat
      | .setstep _ => False
      | .wrbyte _ => s.cfg.surfaceBytes ≤ s.addr.toNat
      | .rmw _ _ => s.cfg.surfaceBytes ≤ s.addr.toNat
      | .clear _ => False
      | .setpixel x y _ => s.cfg.width ≤ x.toNat ∨ s.cfg.height ≤ y.toNat
      | .drawline x0 y0 x1 y1 _ =>
        s.cfg.width ≤ x0.toNat ∨ s.cfg.width ≤ x1.toNat ∨ s.cfg.height ≤ y0.toNat ∨ s.cfg.height ≤ y1.toNat
      | .drawglyph _ x y _ _ => s.cfg.width ≤ x.toNat + 7 ∨ s.cfg.height ≤ y.toNat + 7
      | .drawstring p x y _ _ =>
        ∃ n, stringFailsAt s.cfg p.toNat x.toNat y.toNat n ∧
          (s.cfg.width ≤ x.toNat + 8 * n + 7 ∨ s.cfg.height ≤ y.toNat + 7))

/-- R122, with the priority of R128: UnsupportedGeometry is raised by DRAWLINE only, for endpoints that are diagonal or
reversed, and only where the coordinate check before it passed: the endpoints lie on the surface. -/
def Obligations.UnsupportedGeometryCauses : Prop :=
  ∀ (i : Instr) (s t : State), exec i s = .next t →
    (t.err = 2#3 ↔
      ∃ x0 y0 x1 y1 color, i = .drawline x0 y0 x1 y1 color ∧
        (x0.toNat < s.cfg.width ∧ x1.toNat < s.cfg.width ∧ y0.toNat < s.cfg.height ∧ y1.toNat < s.cfg.height) ∧
        ((x0 ≠ x1 ∧ y0 ≠ y1) ∨ (x0 = x1 ∧ y1.toNat < y0.toNat) ∨ (y0 = y1 ∧ x1.toNat < x0.toNat)))

/-- R123: InvalidCharacter is raised by DRAWSTRING only, when the first character that fails lies below 32 or above 95
and its box is in range; nothing but the code is recorded. -/
def Obligations.InvalidCharacterCauses : Prop :=
  ∀ (i : Instr) (s t : State), exec i s = .next t →
    (t.err = 3#3 → t = { s with err := 3#3 }) ∧
    (t.err = 3#3 ↔
      ∃ p x y fg bg n, i = .drawstring p x y fg bg ∧ stringFailsAt s.cfg p.toNat x.toNat y.toNat n ∧
        (x.toNat + 8 * n + 7 < s.cfg.width ∧ y.toNat + 7 < s.cfg.height) ∧
        ((textRead s.cfg (p.toNat + n)).toNat < 32 ∨ 95 < (textRead s.cfg (p.toNat + n)).toNat))

/-- R124, with the priority of R128: InvalidColor is raised for a colour operand above 15, never by a port command, and
only where every check before it passed. -/
def Obligations.InvalidColorCauses : Prop :=
  ∀ (i : Instr) (s t : State), exec i s = .next t →
    (t.err = 4#3 ↔
      match i with
      | .setaddr _ | .setstep _ | .wrbyte _ | .rmw _ _ => False
      | .clear color => 15 < color.toNat
      | .setpixel x y color => (x.toNat < s.cfg.width ∧ y.toNat < s.cfg.height) ∧ 15 < color.toNat
      | .drawline x0 y0 x1 y1 color =>
        (x0.toNat < s.cfg.width ∧ x1.toNat < s.cfg.width ∧ y0.toNat < s.cfg.height ∧ y1.toNat < s.cfg.height) ∧
          ((x0 = x1 ∧ y0.toNat ≤ y1.toNat) ∨ (y0 = y1 ∧ x0.toNat < x1.toNat)) ∧ 15 < color.toNat
      | .drawglyph _ x y fg bg =>
        (x.toNat + 7 < s.cfg.width ∧ y.toNat + 7 < s.cfg.height) ∧ (15 < fg.toNat ∨ 15 < bg.toNat)
      | .drawstring p x y fg bg =>
        (∃ n, stringOf s.cfg p.toNat x.toNat y.toNat n) ∧ (15 < fg.toNat ∨ 15 < bg.toNat))

/-- R125: StepNotZero is raised by RMW only, when `STEP = 1` and `ADDR < SBC`; with R120: no command that decoded raises
IllegalCommand, and with R23: no rule writes 7. -/
def Obligations.StepNotZeroCauses : Prop :=
  ∀ (i : Instr) (s t : State), exec i s = .next t →
    (t.err = 5#3 ↔ (∃ m v, i = .rmw m v) ∧ s.addr.toNat < s.cfg.surfaceBytes ∧ s.stepReg = 1#1) ∧
    t.err ≠ 6#3 ∧ t.err ≠ 7#3

/-! ## The pixel port (spec/40_pixelport.md) -/

/-- R81. The whole next state is given, so every register, every byte of `VRAM` and the command port not named keep their
values. -/
def Obligations.SetaddrProgramsTheAddress : Prop :=
  ∀ (a : Half) (s : State),
    if s.cfg.surfaceBytes ≤ a.toNat then exec (.setaddr a) s = .next { s with err := 1#3 }
    else exec (.setaddr a) s = .next { s with addr := a, err := 0#3, trace := .sa a.toNat :: s.trace }

/-- R82: no error; `ADDR` and `VRAM` unchanged. The whole next state is given. -/
def Obligations.SetstepProgramsTheStep : Prop :=
  ∀ (n : BitVec 1) (s : State),
    exec (.setstep n) s = .next { s with stepReg := n, err := 0#3, trace := .ss n :: s.trace }

/-- R83: the byte at `ADDR` is written, then `ADDR` steps; past the last byte the write is refused. -/
def Obligations.WrbyteWritesThenSteps : Prop :=
  ∀ (v : Byte) (s : State), Inv s →
    if s.addr.toNat = s.cfg.surfaceBytes then exec (.wrbyte v) s = .next { s with err := 1#3 }
    else ∃ t, exec (.wrbyte v) s = .next t ∧
      Leaves s t (s.addr.toNat + s.stepReg.toNat) s.stepReg [.wr s.addr.toNat v] ∧
      t.vram.read s.addr.toNat = v ∧ ∀ a, a ≠ s.addr.toNat → t.vram.read a = s.vram.read a

/-- R83, corner cases: with `STEP = 1`, `k` successive WRBYTE from `ADDR = a` write `a .. a+k-1` in ascending order,
provided `a + k <= SBC`; with `a + k = SBC` the next one raises. -/
def Obligations.SteppedWritesFillAscendingBytes : Prop :=
  ∀ (bytes : List Byte) (s : State), Inv s → s.stepReg = 1#1 →
    s.addr.toNat + bytes.length ≤ s.cfg.surfaceBytes →
    ∃ t, execAll (bytes.map .wrbyte) s = .next t ∧
      t.addr.toNat = s.addr.toNat + bytes.length ∧ t.stepReg = 1#1 ∧
      (∀ k (h : k < bytes.length), t.vram.read (s.addr.toNat + k) = bytes[k]) ∧
      (∀ a, (a < s.addr.toNat ∨ s.addr.toNat + bytes.length ≤ a) → t.vram.read a = s.vram.read a) ∧
      (s.addr.toNat + bytes.length = s.cfg.surfaceBytes →
        ∀ v, exec (.wrbyte v) t = .next { t with err := 1#3 })

/-- R84: `VRAM[ADDR] = (VRAM[ADDR] & ~m) | v`, nothing else of the port changes; AddressOutOfRange before StepNotZero. -/
def Obligations.RmwMergesValueUnderMask : Prop :=
  ∀ (m v : Byte) (s : State), Inv s →
    if s.addr.toNat = s.cfg.surfaceBytes then exec (.rmw m v) s = .next { s with err := 1#3 }
    else if s.stepReg = 1#1 then exec (.rmw m v) s = .next { s with err := 5#3 }
    else ∃ t, exec (.rmw m v) s = .next t ∧
      Leaves s t s.addr.toNat s.stepReg [.rmw s.addr.toNat m v] ∧
      t.vram.read s.addr.toNat = (s.vram.read s.addr.toNat &&& ~~~m) ||| v ∧
      ∀ a, a ≠ s.addr.toNat → t.vram.read a = s.vram.read a

/-- R86, the laws of `port_rmw`, (a) to (d). -/
def Obligations.RmwByteLaws : Prop :=
  ∀ old m v : Byte,
    (v &&& ~~~m = 0#8 → rmwByte old m v &&& ~~~m = old &&& ~~~m ∧ rmwByte old m v &&& m = v) ∧
    rmwByte (rmwByte old m v) m v = rmwByte old m v ∧
    (∀ c : Byte, c.toNat ≤ 15 →
      ((rmwByte old 0xF0#8 (c <<< 4)).extractLsb 7 4).toNat = c.toNat ∧
      (rmwByte old 0xF0#8 (c <<< 4)).extractLsb 3 0 = old.extractLsb 3 0 ∧
      ((rmwByte old 0x0F#8 c).extractLsb 3 0).toNat = c.toNat ∧
      (rmwByte old 0x0F#8 c).extractLsb 7 4 = old.extractLsb 7 4)

/-- R80, R31: the micro-operations are the only means by which any step changes `ADDR`, `STEP` or `VRAM`: what a step does
to them is the replay of the events it appends to `TRACE`, each with its precondition met; so (R53) no access outside
`0 .. SBC - 1` ever reaches `VRAM`. -/
def Obligations.StepIsTheReplayOfItsEvents : Prop :=
  ∀ s t : State, Inv s → step s = .next t →
    ∃ evs, t.events = s.events ++ evs ∧ s.port.replay s.cfg.surfaceBytes evs = some t.port

/-! ## The nibble addresser (spec/41_framebuffer.md) -/

/-- R92: the offset of a coordinate in range is a `VRAM` address, the last one that of `(W-1, H-1)`, and the two pixels of
a pair share it. -/
def Obligations.OffsetOfAPixelIsAVramAddress : Prop :=
  ∀ (c : Config) (x y : Nat), c.wf = true → inRange c x y →
    off c x y = y * (c.width / 2) + x / 2 ∧ off c x y ≤ c.surfaceBytes - 1 ∧ off c x y < 2 ^ 16 ∧
    off c (c.width - 1) (c.height - 1) = c.surfaceBytes - 1 ∧
    ∀ k, off c (2 * k) y = off c (2 * k + 1) y

/-- R41: the byte at address `a` holds the pixels `(2*(a mod RB), a div RB)` and `(2*(a mod RB) + 1, a div RB)`, and no
other. -/
def Obligations.ByteHoldsExactlyTwoPixels : Prop :=
  ∀ (c : Config) (a x y : Nat), c.wf = true → a < c.surfaceBytes →
    (inRange c x y ∧ off c x y = a ↔
      y = a / c.rowBytes ∧ (x = 2 * (a % c.rowBytes) ∨ x = 2 * (a % c.rowBytes) + 1))

/-- R91, R93: nibble selection by the parity of `x` alone; mask, value and fill byte; the value never reaches outside the
mask. -/
def Obligations.NibbleMaskAndValue : Prop :=
  ∀ (x : Nat) (color : Byte), color.toNat ≤ 15 →
    (x % 2 = 0 → nib x = .hi ∧ pmask x = 0xF0#8 ∧ pval x color = color <<< 4 ∧
      (pval x color).toNat = 16 * color.toNat) ∧
    (x % 2 = 1 → nib x = .lo ∧ pmask x = 0x0F#8 ∧ pval x color = color) ∧
    pval x color &&& ~~~(pmask x) = 0#8 ∧
    fill color = color ||| (color <<< 4) ∧ fill color = pval 0 color ||| pval 1 color ∧
    (fill color).toNat = 17 * color.toNat

/-- R43, R96: a byte is its even pixel in the high nibble and its odd pixel in the low one. -/
def Obligations.ByteIsItsPixelPair : Prop :=
  ∀ (c : Config) (vram : Memory) (k y : Nat),
    vram.read (off c (2 * k) y) = pixel c vram (2 * k) y ++ pixel c vram (2 * k + 1) y

/-- R94: CLEAR. -/
def Obligations.ClearFillsEveryByte : Prop :=
  ∀ (color : Byte) (s : State), Inv s →
    if 15 < color.toNat then exec (.clear color) s = .next { s with err := 4#3 }
    else ∃ t, exec (.clear color) s = .next t ∧
      Leaves s t s.cfg.surfaceBytes 1#1
        (.sa 0 :: .ss 1#1 :: (List.range s.cfg.surfaceBytes).map fun k => .wr k (color ||| (color <<< 4))) ∧
      (∀ a, a < s.cfg.surfaceBytes → (t.vram.read a).toNat = 17 * color.toNat) ∧
      ∀ a, s.cfg.surfaceBytes ≤ a → t.vram.read a = s.vram.read a

/-- R95: SETPIXEL. The byte stored to is `off(x, y)`. -/
def Obligations.SetpixelSetsOneNibble : Prop :=
  ∀ (x y : Half) (color : Byte) (s : State), Inv s →
    if s.cfg.width ≤ x.toNat ∨ s.cfg.height ≤ y.toNat then exec (.setpixel x y color) s = .next { s with err := 1#3 }
    else if 15 < color.toNat then exec (.setpixel x y color) s = .next { s with err := 4#3 }
    else ∃ t, exec (.setpixel x y color) s = .next t ∧
      Leaves s t (off s.cfg x.toNat y.toNat) 0#1 (pixelEvents s.cfg x.toNat y.toNat color) ∧
      (x.toNat % 2 = 0 → t.vram.read (off s.cfg x.toNat y.toNat) =
        (color <<< 4) ||| (s.vram.read (off s.cfg x.toNat y.toNat) &&& 0x0F#8)) ∧
      (x.toNat % 2 = 1 → t.vram.read (off s.cfg x.toNat y.toNat) =
        (s.vram.read (off s.cfg x.toNat y.toNat) &&& 0xF0#8) ||| color) ∧
      ∀ a, a ≠ off s.cfg x.toNat y.toNat → t.vram.read a = s.vram.read a

/-- R97 (a) to (c): SETPIXEL sets its pixel and no other pixel of the surface. -/
def Obligations.SetpixelChangesOnePixel : Prop :=
  ∀ (x y : Half) (color : Byte) (s t : State), Inv s → exec (.setpixel x y color) s = .next t → t.err = 0#3 →
    (pixel s.cfg t.vram x.toNat y.toNat).toNat = color.toNat ∧
    ∀ x' y', inRange s.cfg x' y' → (x' ≠ x.toNat ∨ y' ≠ y.toNat) →
      pixel s.cfg t.vram x' y' = pixel s.cfg s.vram x' y'

/-- R97 (d), (e): after CLEAR every pixel has its colour, and setting any pixels of the surface to that colour again, each
with result 0, leaves every byte `c | (c << 4)`. -/
def Obligations.ClearThenSetpixelsKeepTheFill : Prop :=
  ∀ (color : Byte) (pixels : List (Half × Half)) (s : State), Inv s → color.toNat ≤ 15 →
    (∀ q ∈ pixels, inRange s.cfg q.1.toNat q.2.toNat) →
    ∃ t u, exec (.clear color) s = .next t ∧
      (∀ x y, inRange s.cfg x y → (pixel s.cfg t.vram x y).toNat = color.toNat) ∧
      safeRun (pixels.map fun q => .setpixel q.1 q.2 color) t ∧
      execAll (pixels.map fun q => .setpixel q.1 q.2 color) t = .next u ∧
      ∀ a, a < s.cfg.surfaceBytes → u.vram.read a = color ||| (color <<< 4)

/-! ## The line stepper (spec/42_linedrawer.md) -/

/-- R101: the classes are exclusive and exhaustive, a request is supported exactly when it is a point or ascending, and a
supported request takes the vertical path when `x0 = x1`, else the horizontal one. -/
def Obligations.LineClassification : Prop :=
  ∀ x0 y0 x1 y1 : Nat,
    (lineClass x0 y0 x1 y1 = .point ↔ x0 = x1 ∧ y0 = y1) ∧
    (lineClass x0 y0 x1 y1 = .verticalAscending ↔ x0 = x1 ∧ y0 < y1) ∧
    (lineClass x0 y0 x1 y1 = .verticalReversed ↔ x0 = x1 ∧ y0 > y1) ∧
    (lineClass x0 y0 x1 y1 = .horizontalAscending ↔ x0 < x1 ∧ y0 = y1) ∧
    (lineClass x0 y0 x1 y1 = .horizontalReversed ↔ x0 > x1 ∧ y0 = y1) ∧
    (lineClass x0 y0 x1 y1 = .diagonal ↔ x0 ≠ x1 ∧ y0 ≠ y1) ∧
    (supportedLine x0 y0 x1 y1 ↔
      lineClass x0 y0 x1 y1 = .point ∨ lineClass x0 y0 x1 y1 = .verticalAscending ∨
        lineClass x0 y0 x1 y1 = .horizontalAscending) ∧
    (∀ (color : Byte) (s : State),
      (x0 = x1 ∧ y0 ≤ y1 → lineEffect x0 y0 x1 y1 color s = verticalPath x0 y0 y1 color s) ∧
      (y0 = y1 ∧ x0 < x1 → lineEffect x0 y0 x1 y1 color s = horizontalPath x0 x1 y0 color s))

/-- R100, R128: the checks of DRAWLINE in their order; on any error nothing is drawn. -/
def Obligations.DrawlineChecksInOrder : Prop :=
  ∀ (x0 y0 x1 y1 : Half) (color : Byte) (s : State), Inv s →
    if s.cfg.width ≤ x0.toNat ∨ s.cfg.width ≤ x1.toNat ∨ s.cfg.height ≤ y0.toNat ∨ s.cfg.height ≤ y1.toNat then
      exec (.drawline x0 y0 x1 y1 color) s = .next { s with err := 1#3 }
    else if ¬ ((x0 = x1 ∧ y0.toNat ≤ y1.toNat) ∨ (y0 = y1 ∧ x0.toNat < x1.toNat)) then
      exec (.drawline x0 y0 x1 y1 color) s = .next { s with err := 2#3 }
    else if 15 < color.toNat then exec (.drawline x0 y0 x1 y1 color) s = .next { s with err := 4#3 }
    else ∃ t, exec (.drawline x0 y0 x1 y1 color) s = .next t ∧ t.err = 0#3

/-- R102: the vertical path, a point included. The bytes stored to are `off(x0, y)` for `y` in `y0 .. y1`. -/
def Obligations.VerticalLineDrawsItsColumn : Prop :=
  ∀ (x0 y0 y1 : Half) (color : Byte) (s : State), Inv s →
    inRange s.cfg x0.toNat y1.toNat → y0.toNat ≤ y1.toNat → color.toNat ≤ 15 →
    ∃ t, exec (.drawline x0 y0 x0 y1 color) s = .next t ∧
      Leaves s t (off s.cfg x0.toNat y1.toNat) 0#1
        (.sa (off s.cfg x0.toNat y0.toNat) :: .ss 0#1 ::
          (List.range' y0.toNat (y1.toNat - y0.toNat + 1)).flatMap fun y =>
            .rmw (off s.cfg x0.toNat y) (pmask x0.toNat) (pval x0.toNat color) ::
              (if y < y1.toNat then [.adv s.cfg.rowBytes] else [])) ∧
      (∀ y, y0.toNat ≤ y → y ≤ y1.toNat → (pixel s.cfg t.vram x0.toNat y).toNat = color.toNat) ∧
      (∀ x y, inRange s.cfg x y → ¬ (x = x0.toNat ∧ y0.toNat ≤ y ∧ y ≤ y1.toNat) →
        pixel s.cfg t.vram x y = pixel s.cfg s.vram x y) ∧
      ∀ a, (∀ y, y0.toNat ≤ y → y ≤ y1.toNat → a ≠ off s.cfg x0.toNat y) → t.vram.read a = s.vram.read a

/-- R103: the horizontal path. The bytes stored to are `off(x, y0)` for `x` in `x0 .. x1`. -/
def Obligations.HorizontalLineDrawsItsRow : Prop :=
  ∀ (x0 x1 y0 : Half) (color : Byte) (s : State), Inv s →
    inRange s.cfg x1.toNat y0.toNat → x0.toNat < x1.toNat → color.toNat ≤ 15 →
    ∃ t, exec (.drawline x0 y0 x1 y0 color) s = .next t ∧
      Leaves s t (off s.cfg x1.toNat y0.toNat) 0#1
        (.sa (off s.cfg x0.toNat y0.toNat) :: .ss 0#1 ::
          (List.range' x0.toNat (x1.toNat - x0.toNat + 1)).flatMap fun x =>
            .rmw (off s.cfg x y0.toNat) (pmask x) (pval x color) ::
              (if x < x1.toNat ∧ x % 2 = 1 then [.adv 1] else [])) ∧
      (∀ x, x0.toNat ≤ x → x ≤ x1.toNat → (pixel s.cfg t.vram x y0.toNat).toNat = color.toNat) ∧
      (∀ x y, inRange s.cfg x y → ¬ (y = y0.toNat ∧ x0.toNat ≤ x ∧ x ≤ x1.toNat) →
        pixel s.cfg t.vram x y = pixel s.cfg s.vram x y) ∧
      ∀ a, (∀ x, x0.toNat ≤ x → x ≤ x1.toNat → a ≠ off s.cfg x y0.toNat) → t.vram.read a = s.vram.read a

/-- R104: a successful DRAWLINE leaves `VRAM`, `ADDR` and `STEP` (here: the whole state but `TRACE`) exactly as the
successful SETPIXELs over its pixels in drawing order would. -/
def Obligations.DrawlineEqualsItsSetpixels : Prop :=
  ∀ (x0 y0 x1 y1 : Half) (color : Byte) (s t : State), Inv s →
    exec (.drawline x0 y0 x1 y1 color) s = .next t → t.err = 0#3 →
    let column := (List.range' y0.toNat (y1.toNat - y0.toNat + 1)).map fun y =>
      Instr.setpixel x0 (BitVec.ofNat 16 y) color
    let row := (List.range' x0.toNat (x1.toNat - x0.toNat + 1)).map fun x =>
      Instr.setpixel (BitVec.ofNat 16 x) y0 color
    safeRun (if x0 = x1 then column else row) s ∧
      ∃ u, execAll (if x0 = x1 then column else row) s = .next u ∧ u = { t with trace := u.trace }

/-- R104, the point class: DRAWLINE of a point and SETPIXEL agree in everything, errors and `TRACE` included. -/
def Obligations.PointLineIsSetpixel : Prop :=
  ∀ (x y : Half) (color : Byte) (s : State), exec (.drawline x y x y color) s = exec (.setpixel x y color) s

/-- R105 (b): two successful lines that cross leave their common pixel in the later one's colour; with one colour the order
does not matter to `VRAM`. -/
def Obligations.CrossingLinesAgree : Prop :=
  ∀ (a0 b0 a1 b1 c0 d0 c1 d1 : Half) (color color' : Byte) (x y : Nat) (s t u t' u' : State), Inv s →
    exec (.drawline a0 b0 a1 b1 color) s = .next t → t.err = 0#3 →
    exec (.drawline c0 d0 c1 d1 color') t = .next u → u.err = 0#3 →
    exec (.drawline c0 d0 c1 d1 color') s = .next t' → exec (.drawline a0 b0 a1 b1 color) t' = .next u' →
    (a0.toNat ≤ x ∧ x ≤ a1.toNat ∧ b0.toNat ≤ y ∧ y ≤ b1.toNat) →
    (c0.toNat ≤ x ∧ x ≤ c1.toNat ∧ d0.toNat ≤ y ∧ y ≤ d1.toNat) →
    (pixel s.cfg u.vram x y).toNat = color'.toNat ∧ (color = color' → u.vram = u'.vram)

/-! ## Composite commands together -/

/-- R13, R105 (c): every draw call is idempotent: a successful composite command issued again leaves the whole state but
`TRACE` as issuing it once does. -/
def Obligations.CompositeCommandsAreIdempotent : Prop :=
  ∀ (i : Instr) (s t : State), isComposite i = true → Inv s → exec i s = .next t → t.err = 0#3 →
    ∃ u, exec i t = .next u ∧ u = { t with trace := u.trace }

/-- R24, R105 (d): no composite command depends on the `ADDR` and `STEP` it finds: what it does to the rest of the state,
and to the two registers if it touches the port at all, is the same for every value of them. -/
def Obligations.CompositeCommandsIgnorePortRegisters : Prop :=
  ∀ (i : Instr) (s t : State) (a : Half) (n : BitVec 1), isComposite i = true → exec i s = .next t →
    ∃ t', exec i { s with addr := a, stepReg := n } = .next t' ∧
      t' = { t with addr := t'.addr, stepReg := t'.stepReg } ∧
      (t.trace ≠ s.trace → t' = t)

/-- R150: the number of port micro-operations of each command; none for one that raises. -/
def Obligations.MicroOperationCounts : Prop :=
  ∀ (i : Instr) (s t : State), Inv s → exec i s = .next t →
    (t.err ≠ 0#3 → t.events.length = s.events.length) ∧
    (t.err = 0#3 →
      match i with
      | .setaddr _ | .setstep _ | .wrbyte _ | .rmw _ _ => t.events.length = s.events.length + 1
      | .clear _ => t.events.length = s.events.length + (2 + s.cfg.surfaceBytes)
      | .setpixel _ _ _ => t.events.length = s.events.length + 3
      | .drawline x0 y0 x1 y1 _ =>
        if x0 = x1 then
          t.events.length = s.events.length + (2 + (y1.toNat - y0.toNat + 1) + (y1.toNat - y0.toNat))
        else
          t.events.length = s.events.length + (2 + (x1.toNat - x0.toNat + 1) + (x1.toNat / 2 - x0.toNat / 2))
      | .drawglyph _ _ _ _ _ => t.events.length = s.events.length + 192
      | .drawstring p x y _ _ =>
        ∃ n, stringOf s.cfg p.toNat x.toNat y.toNat n ∧ n ≤ s.cfg.width / 8 ∧
          t.events.length = s.events.length + 192 * n)

/-! ## Glyphs and strings (spec/43_glyph_text.md) -/

/-- R110, R114: DRAWGLYPH. The bytes stored to are `off(x + k, y + r)` for the 64 cells. -/
def Obligations.DrawglyphPaintsItsBox : Prop :=
  ∀ (g : Glyph) (x y : Half) (fg bg : Byte) (s : State), Inv s →
    if s.cfg.width ≤ x.toNat + 7 ∨ s.cfg.height ≤ y.toNat + 7 then
      exec (.drawglyph g x y fg bg) s = .next { s with err := 1#3 }
    else if 15 < fg.toNat ∨ 15 < bg.toNat then exec (.drawglyph g x y fg bg) s = .next { s with err := 4#3 }
    else ∃ t, exec (.drawglyph g x y fg bg) s = .next t ∧
      Leaves s t (off s.cfg (x.toNat + 7) (y.toNat + 7)) 0#1 (glyphEvents s.cfg g x.toNat y.toNat fg bg) ∧
      (∀ r k, r < 8 → k < 8 → (pixel s.cfg t.vram (x.toNat + k) (y.toNat + r)).toNat =
        (if (glyphRow g r).getLsbD (7 - k) then fg else bg).toNat) ∧
      (∀ px py, inRange s.cfg px py → ¬ inBox x.toNat y.toNat px py →
        pixel s.cfg t.vram px py = pixel s.cfg s.vram px py) ∧
      ∀ a, (∀ r k, r < 8 → k < 8 → a ≠ off s.cfg (x.toNat + k) (y.toNat + r)) → t.vram.read a = s.vram.read a

/-- R114: a successful DRAWGLYPH is its 64 pixel sets, rows top to bottom and columns left to right. -/
def Obligations.DrawglyphEqualsItsSetpixels : Prop :=
  ∀ (g : Glyph) (x y : Half) (fg bg : Byte) (s t : State), Inv s →
    exec (.drawglyph g x y fg bg) s = .next t → t.err = 0#3 →
    let cells := (List.range 8).flatMap fun r => (List.range 8).map fun k =>
      Instr.setpixel (BitVec.ofNat 16 (x.toNat + k)) (BitVec.ofNat 16 (y.toNat + r)) (gcol g r k fg bg)
    safeRun cells s ∧ execAll cells s = .next t

/-- R150, R113: the bound on the characters a scan looks at is never met: any larger bound gives the same answer. -/
def Obligations.StringScanAlwaysEnds : Prop :=
  ∀ (c : Config) (p x y fuel : Nat), c.width / 8 + 1 ≤ fuel →
    scanFrom c p x y fuel 0 = scanString c p x y ∧
    ((∃ n, n ≤ c.width / 8 ∧ stringOf c p x y n) ∨ ∃ n, n ≤ c.width / 8 ∧ stringFailsAt c p x y n)

/-- R113, R115: a DRAWSTRING of `n` covered characters whose boxes lie on the surface, with legal colours. The bytes stored
to are those of the `n` boxes. An empty string changes nothing but `ERR`. -/
def Obligations.DrawstringPaintsItsBoxes : Prop :=
  ∀ (p x y : Half) (fg bg : Byte) (n : Nat) (s : State), Inv s →
    stringOf s.cfg p.toNat x.toNat y.toNat n → fg.toNat ≤ 15 → bg.toNat ≤ 15 →
    (n = 0 → exec (.drawstring p x y fg bg) s = .next { s with err := 0#3 }) ∧
    (1 ≤ n → ∃ t, exec (.drawstring p x y fg bg) s = .next t ∧
      Leaves s t (off s.cfg (x.toNat + 8 * (n - 1) + 7) (y.toNat + 7)) 0#1
        ((List.range n).flatMap fun i =>
          glyphEvents s.cfg (fglyph s.cfg (textRead s.cfg (p.toNat + i)).toNat) (x.toNat + 8 * i) y.toNat fg bg) ∧
      (∀ i r k, i < n → r < 8 → k < 8 →
        (pixel s.cfg t.vram (x.toNat + 8 * i + k) (y.toNat + r)).toNat =
          (if (fontRead s.cfg (((textRead s.cfg (p.toNat + i)).toNat - 32) * 8 + r)).getLsbD (7 - k) then fg
            else bg).toNat) ∧
      (∀ px py, inRange s.cfg px py → (∀ i, i < n → ¬ inBox (x.toNat + 8 * i) y.toNat px py) →
        pixel s.cfg t.vram px py = pixel s.cfg s.vram px py) ∧
      ∀ a, (∀ i r k, i < n → r < 8 → k < 8 → a ≠ off s.cfg (x.toNat + 8 * i + k) (y.toNat + r)) →
        t.vram.read a = s.vram.read a)

/-- R113, R128: what a DRAWSTRING reports when it raises: the first failing character's error, its range before its
coverage; the colours only after a clean scan. -/
def Obligations.DrawstringReportsTheFirstFailure : Prop :=
  ∀ (p x y : Half) (fg bg : Byte) (s : State), Inv s →
    (∀ n, stringFailsAt s.cfg p.toNat x.toNat y.toNat n →
      exec (.drawstring p x y fg bg) s = .next { s with
        err := if s.cfg.width ≤ x.toNat + 8 * n + 7 ∨ s.cfg.height ≤ y.toNat + 7 then 1#3 else 3#3 }) ∧
    (∀ n, stringOf s.cfg p.toNat x.toNat y.toNat n → (15 < fg.toNat ∨ 15 < bg.toNat) →
      exec (.drawstring p x y fg bg) s = .next { s with err := 4#3 })

/-- R116: a successful DRAWSTRING of `n >= 1` characters is, in the whole state, the `n` DRAWGLYPHs of its characters'
glyphs in order. -/
def Obligations.DrawstringEqualsItsDrawglyphs : Prop :=
  ∀ (p x y : Half) (fg bg : Byte) (n : Nat) (s t : State), Inv s → 1 ≤ n →
    stringOf s.cfg p.toNat x.toNat y.toNat n → exec (.drawstring p x y fg bg) s = .next t → t.err = 0#3 →
    let glyphs := (List.range n).map fun i =>
      Instr.drawglyph (fglyph s.cfg (textRead s.cfg (p.toNat + i)).toNat) (BitVec.ofNat 16 (x.toNat + 8 * i)) y fg bg
    safeRun glyphs s ∧ execAll glyphs s = .next t
end

