-- ==== Sys2Proof/Laws/Encoding.lean ====
section
/-! SUPPORT. The slices of an encoded command, field by field: what the encoder lays down at a bit position is what the
decoder reads there. -/

namespace Sys2Proof

/-- What lies at bit `s` and above of fields packed from bit 0 up. -/
def above (fields : List (Nat × Nat)) (s : Nat) : Nat := pack fields / 2 ^ s

@[simp] theorem above_nil (s : Nat) : above [] s = 0 := by simp [above, pack]

/-- A field that ends at or below bit `s` does not show there. -/
theorem above_skip {w : Nat} (v : BitVec w) (rest : List (Nat × Nat)) (s : Nat) (h : w ≤ s) :
    above ((w, v.toNat) :: rest) s = above rest (s - w) := by
  obtain ⟨t, rfl⟩ := Nat.exists_eq_add_of_le h
  have hv : v.toNat / 2 ^ w = 0 := Nat.div_eq_of_lt v.isLt
  have hw : 0 < 2 ^ w := Nat.two_pow_pos w
  simp only [above, pack, Nat.add_sub_cancel_left]
  rw [Nat.pow_add, ← Nat.div_div_eq_div_mul, Nat.add_mul_div_left _ _ hw, hv, Nat.zero_add]

/-- The field that begins at bit 0 of what is left. -/
theorem above_head {w : Nat} (v : BitVec w) (rest : List (Nat × Nat)) :
    BitVec.ofNat w (above ((w, v.toNat) :: rest) 0) = v := by
  apply BitVec.eq_of_toNat_eq
  simp only [above, pack, Nat.pow_zero, Nat.div_one, BitVec.toNat_ofNat, Nat.add_mul_mod_self_left]
  exact Nat.mod_eq_of_lt v.isLt

/-- A slice of an encoded command is a slice of its packed fields. -/
theorem encode_slice (i : Instr) (s l : Nat) (h : s + l ≤ 128) :
    (encode i).extractLsb' s l = BitVec.ofNat l (above i.fields s) := by
  apply BitVec.eq_of_toNat_eq
  simp only [encode, above, BitVec.extractLsb'_toNat, BitVec.toNat_ofNat, Nat.shiftRight_eq_div_pow]
  obtain ⟨d, hd⟩ := Nat.exists_eq_add_of_le h
  have e : 2 ^ 128 = 2 ^ s * 2 ^ (l + d) := by rw [← Nat.pow_add]; congr 1; omega
  rw [e, Nat.mod_mul_right_div_self, Nat.mod_mod_of_dvd]
  exact ⟨2 ^ d, Nat.pow_add 2 l d⟩

/-- The opcode byte of an encoded command is its mnemonic's (R64). -/
theorem encode_opcode (i : Instr) : (encode i).extractLsb 7 0 = i.mnemonic.opcode := by
  simp only [BitVec.extractLsb]
  rw [encode_slice i 0 _ (by omega)]
  cases i <;> exact above_head _ _

end Sys2Proof
end

