-- ==== Sys2Proof/Laws/Memory.lean ====
section
/-! SUPPORT. Laws of byte memories: a read after a write, the canonical form and its preservation, and that canonical
memories which read alike are equal. -/

namespace Sys2Proof

/-- An address below the bound of a canonical memory has no cell. -/
theorem Memory.read_below_wfFrom (m : Memory) (lo a : Nat) (h : m.wfFrom lo = true) (ha : a < lo) :
    m.read a = Config.unlistedByte := by
  induction m generalizing lo with
  | nil => rfl
  | cons cell rest ih =>
    obtain ⟨k, b⟩ := cell
    simp only [Memory.wfFrom, Bool.and_eq_true, decide_eq_true_eq] at h
    have hk : k ≠ a := by omega
    simp only [Memory.read, hk, if_false]
    exact ih (k + 1) h.2 (by omega)

theorem Memory.wfFrom_mono (m : Memory) (lo lo' : Nat) (h : m.wfFrom lo = true) (hl : lo' ≤ lo) :
    m.wfFrom lo' = true := by
  cases m with
  | nil => rfl
  | cons cell rest =>
    obtain ⟨k, b⟩ := cell
    simp only [Memory.wfFrom, Bool.and_eq_true, decide_eq_true_eq] at h ⊢
    exact ⟨⟨by omega, h.1.2⟩, h.2⟩

/-- A write reads back, and leaves every other address alone (spec/20_memory.md rule R47 (c)). -/
theorem Memory.read_write (m : Memory) (h : m.wf = true) (a : Nat) (v : Byte) (b : Nat) :
    (m.write a v).read b = if b = a then v else m.read b := by
  suffices ∀ lo, m.wfFrom lo = true → (m.write a v).read b = if b = a then v else m.read b from this 0 h
  clear h
  induction m with
  | nil =>
    intro lo _
    by_cases hb : b = a
    · by_cases hv : v = Config.unlistedByte <;> simp [Memory.write, Memory.read, hv, hb]
    · have hab : ¬ a = b := fun e => hb e.symm
      by_cases hv : v = Config.unlistedByte <;> simp [Memory.write, Memory.read, hv, hb, hab]
  | cons cell rest ih =>
    obtain ⟨k, w⟩ := cell
    intro lo h
    simp only [Memory.wfFrom, Bool.and_eq_true, decide_eq_true_eq] at h
    have below : ∀ c, c ≤ k → Memory.read rest c = Config.unlistedByte := fun c hc =>
      Memory.read_below_wfFrom rest (k + 1) c h.2 (by omega)
    by_cases hb : b = a
    · subst hb
      rcases Nat.lt_trichotomy b k with hlt | heq | hgt
      · have hkb : ¬ k = b := by omega
        by_cases hv : v = Config.unlistedByte <;>
          simp [Memory.write, Memory.read, hlt, hkb, hv, below b (by omega)]
      · subst heq
        by_cases hv : v = Config.unlistedByte <;> simp [Memory.write, Memory.read, hv, below b (by omega)]
      · have h1 : ¬ b < k := by omega
        have h2 : ¬ b = k := by omega
        have h3 : ¬ k = b := by omega
        simpa [Memory.write, Memory.read, h1, h2, h3] using ih (k + 1) h.2
    · have hab : ¬ a = b := fun e => hb e.symm
      have hrest := ih (k + 1) h.2
      simp only [hb, if_false] at hrest ⊢
      simp only [Memory.write]
      split_ifs with h1 h2 h3 h4
      · rfl
      · simp [Memory.read, hab]
      · subst h3
        simp [Memory.read, hab]
      · subst h3
        simp [Memory.read, hab]
      · simp [Memory.read, hrest]

theorem Memory.wfFrom_write (m : Memory) (lo a : Nat) (v : Byte) (h : m.wfFrom lo = true) (ha : lo ≤ a) :
    (m.write a v).wfFrom lo = true := by
  induction m generalizing lo with
  | nil =>
    by_cases hv : v = Config.unlistedByte <;> simp [Memory.write, Memory.wfFrom, hv, ha]
  | cons cell rest ih =>
    obtain ⟨k, w⟩ := cell
    have hw := h
    simp only [Memory.wfFrom, Bool.and_eq_true, decide_eq_true_eq, bne_iff_ne, ne_eq] at h
    simp only [Memory.write]
    split
    · split
      · exact hw
      · rename_i hv
        simp only [Memory.wfFrom, Bool.and_eq_true, decide_eq_true_eq, bne_iff_ne, ne_eq]
        exact ⟨⟨ha, hv⟩, ⟨⟨by omega, h.1.2⟩, h.2⟩⟩
    · split
      · split
        · exact Memory.wfFrom_mono rest (k + 1) lo h.2 (by omega)
        · rename_i hak hv
          simp only [Memory.wfFrom, Bool.and_eq_true, decide_eq_true_eq, bne_iff_ne, ne_eq]
          exact ⟨⟨ha, hv⟩, by rw [hak]; exact h.2⟩
      · simp only [Memory.wfFrom, Bool.and_eq_true, decide_eq_true_eq, bne_iff_ne, ne_eq]
        exact ⟨h.1, ih (k + 1) h.2 (by omega)⟩

/-- A write keeps the canonical form. -/
theorem Memory.wf_write (m : Memory) (h : m.wf = true) (a : Nat) (v : Byte) : (m.write a v).wf = true :=
  Memory.wfFrom_write m 0 a v h (Nat.zero_le a)

/-- A write below `size` keeps every cell below `size`. -/
theorem Memory.below_write (m : Memory) (size a : Nat) (v : Byte) (h : m.below size = true) (ha : a < size) :
    (m.write a v).below size = true := by
  induction m with
  | nil =>
    by_cases hv : v = Config.unlistedByte <;> simp [Memory.write, Memory.below, hv, ha]
  | cons cell rest ih =>
    obtain ⟨k, w⟩ := cell
    have hw := h
    simp only [Memory.below, List.all_cons, Bool.and_eq_true, decide_eq_true_eq] at h
    simp only [Memory.write]
    have hrest : (Memory.below size rest) = true := h.2
    split
    · split
      · exact hw
      · simpa [Memory.below, ha] using hw
    · split
      · split
        · exact hrest
        · simpa [Memory.below, ha] using hrest
      · simpa [Memory.below, h.1] using ih hrest

/-- A write below `size` keeps a memory of `size` bytes one. -/
theorem Memory.wfSized_write (m : Memory) (size a : Nat) (v : Byte) (h : m.wfSized size = true) (ha : a < size) :
    (m.write a v).wfSized size = true := by
  simp only [Memory.wfSized, Bool.and_eq_true] at h ⊢
  exact ⟨Memory.wf_write m h.1 a v, Memory.below_write m size a v h.2 ha⟩

theorem Memory.wf_of_wfSized {m : Memory} {size : Nat} (h : m.wfSized size = true) : m.wf = true := by
  simp only [Memory.wfSized, Bool.and_eq_true] at h
  exact h.1

theorem Memory.ext_from (m n : Memory) (lo : Nat) (hm : m.wfFrom lo = true) (hn : n.wfFrom lo = true)
    (h : ∀ a, m.read a = n.read a) : m = n := by
  induction m generalizing lo n with
  | nil =>
    cases n with
    | nil => rfl
    | cons cell rest =>
      obtain ⟨k, b⟩ := cell
      have hk := h k
      simp only [Memory.wfFrom, Bool.and_eq_true, decide_eq_true_eq, bne_iff_ne, ne_eq] at hn
      simp only [Memory.read, if_true] at hk
      exact absurd hk.symm hn.1.2
  | cons cell rest ih =>
    obtain ⟨k, b⟩ := cell
    simp only [Memory.wfFrom, Bool.and_eq_true, decide_eq_true_eq, bne_iff_ne, ne_eq] at hm
    cases n with
    | nil =>
      have hk := h k
      simp only [Memory.read, if_true] at hk
      exact absurd hk hm.1.2
    | cons cell' rest' =>
      obtain ⟨k', b'⟩ := cell'
      simp only [Memory.wfFrom, Bool.and_eq_true, decide_eq_true_eq, bne_iff_ne, ne_eq] at hn
      have key : k = k' := by
        rcases Nat.lt_trichotomy k k' with hlt | heq | hgt
        · have hk := h k
          have hk' : k' ≠ k := by omega
          simp only [Memory.read, if_true, hk', if_false] at hk
          rw [Memory.read_below_wfFrom rest' (k' + 1) k hn.2 (by omega)] at hk
          exact absurd hk hm.1.2
        · exact heq
        · have hk := h k'
          have hk' : k ≠ k' := by omega
          simp only [Memory.read, if_true, hk', if_false] at hk
          rw [Memory.read_below_wfFrom rest (k + 1) k' hm.2 (by omega)] at hk
          exact absurd hk.symm hn.1.2
      subst key
      have hb : b = b' := by
        have := h k
        simpa [Memory.read] using this
      subst hb
      have hrest : rest = rest' := by
        apply ih rest' (k + 1) hm.2 hn.2
        intro a
        by_cases ha : k = a
        · rw [Memory.read_below_wfFrom rest (k + 1) a hm.2 (by omega),
            Memory.read_below_wfFrom rest' (k + 1) a hn.2 (by omega)]
        · have := h a
          simpa [Memory.read, ha] using this
      rw [hrest]

/-- Memories in canonical form that read alike are equal data. -/
theorem Memory.ext_wf (m n : Memory) (hm : m.wf = true) (hn : n.wf = true) (h : ∀ a, m.read a = n.read a) : m = n :=
  Memory.ext_from m n 0 hm hn h

/-- Writing the byte already there leaves the memory as it is (spec/20_memory.md rule R52). -/
theorem Memory.write_read_self (m : Memory) (h : m.wf = true) (a : Nat) : m.write a (m.read a) = m := by
  apply Memory.ext_wf _ _ (Memory.wf_write m h a _) h
  intro b
  rw [Memory.read_write m h]
  split
  · rename_i hb; rw [hb]
  · rfl

/-- An address outside a memory of `size` bytes reads as an unlisted one. -/
theorem Memory.read_ge_of_below (m : Memory) (size a : Nat) (h : m.below size = true) (ha : size ≤ a) :
    m.read a = Config.unlistedByte := by
  induction m with
  | nil => rfl
  | cons cell rest ih =>
    obtain ⟨k, b⟩ := cell
    simp only [Memory.below, List.all_cons, Bool.and_eq_true, decide_eq_true_eq] at h
    have hk : k ≠ a := by omega
    simp only [Memory.read, hk, if_false]
    exact ih h.2

end Sys2Proof
end

