-- ==== Sys2Proof/Laws/State.lean ====
section
/-! SUPPORT. The small lemmas of the state: one per field per update, so that no later proof unfolds a record update. -/

namespace Sys2Proof.Machine

@[simp] theorem log_addr (e : PortEvent) (s : State) : (log e s).addr = s.addr := rfl
@[simp] theorem log_stepReg (e : PortEvent) (s : State) : (log e s).stepReg = s.stepReg := rfl
@[simp] theorem log_err (e : PortEvent) (s : State) : (log e s).err = s.err := rfl
@[simp] theorem log_vram (e : PortEvent) (s : State) : (log e s).vram = s.vram := rfl
@[simp] theorem log_trace (e : PortEvent) (s : State) : (log e s).trace = e :: s.trace := rfl
@[simp] theorem log_cfg (e : PortEvent) (s : State) : (log e s).cfg = s.cfg := rfl
@[simp] theorem log_commands (e : PortEvent) (s : State) : (log e s).commands = s.commands := rfl

@[simp] theorem memWrite_addr (a : Nat) (v : Byte) (s : State) : (memWrite a v s).addr = s.addr := rfl
@[simp] theorem memWrite_stepReg (a : Nat) (v : Byte) (s : State) : (memWrite a v s).stepReg = s.stepReg := rfl
@[simp] theorem memWrite_err (a : Nat) (v : Byte) (s : State) : (memWrite a v s).err = s.err := rfl
@[simp] theorem memWrite_vram (a : Nat) (v : Byte) (s : State) : (memWrite a v s).vram = s.vram.write a v := rfl
@[simp] theorem memWrite_trace (a : Nat) (v : Byte) (s : State) : (memWrite a v s).trace = s.trace := rfl
@[simp] theorem memWrite_cfg (a : Nat) (v : Byte) (s : State) : (memWrite a v s).cfg = s.cfg := rfl
@[simp] theorem memWrite_commands (a : Nat) (v : Byte) (s : State) : (memWrite a v s).commands = s.commands := rfl

@[simp] theorem portSetaddr_addr (a : Nat) (s : State) : (portSetaddr a s).addr = BitVec.ofNat 16 a := rfl
@[simp] theorem portSetaddr_stepReg (a : Nat) (s : State) : (portSetaddr a s).stepReg = s.stepReg := rfl
@[simp] theorem portSetaddr_err (a : Nat) (s : State) : (portSetaddr a s).err = s.err := rfl
@[simp] theorem portSetaddr_vram (a : Nat) (s : State) : (portSetaddr a s).vram = s.vram := rfl
@[simp] theorem portSetaddr_trace (a : Nat) (s : State) : (portSetaddr a s).trace = .sa a :: s.trace := rfl
@[simp] theorem portSetaddr_cfg (a : Nat) (s : State) : (portSetaddr a s).cfg = s.cfg := rfl
@[simp] theorem portSetaddr_commands (a : Nat) (s : State) : (portSetaddr a s).commands = s.commands := rfl

@[simp] theorem portSetstep_addr (n : BitVec 1) (s : State) : (portSetstep n s).addr = s.addr := rfl
@[simp] theorem portSetstep_stepReg (n : BitVec 1) (s : State) : (portSetstep n s).stepReg = n := rfl
@[simp] theorem portSetstep_err (n : BitVec 1) (s : State) : (portSetstep n s).err = s.err := rfl
@[simp] theorem portSetstep_vram (n : BitVec 1) (s : State) : (portSetstep n s).vram = s.vram := rfl
@[simp] theorem portSetstep_trace (n : BitVec 1) (s : State) : (portSetstep n s).trace = .ss n :: s.trace := rfl
@[simp] theorem portSetstep_cfg (n : BitVec 1) (s : State) : (portSetstep n s).cfg = s.cfg := rfl
@[simp] theorem portSetstep_commands (n : BitVec 1) (s : State) : (portSetstep n s).commands = s.commands := rfl

@[simp] theorem portWrite_addr (v : Byte) (s : State) : (portWrite v s).addr = s.addr + s.stepReg.setWidth 16 := rfl
@[simp] theorem portWrite_stepReg (v : Byte) (s : State) : (portWrite v s).stepReg = s.stepReg := rfl
@[simp] theorem portWrite_err (v : Byte) (s : State) : (portWrite v s).err = s.err := rfl
@[simp] theorem portWrite_vram (v : Byte) (s : State) : (portWrite v s).vram = s.vram.write s.addr.toNat v := rfl
@[simp] theorem portWrite_trace (v : Byte) (s : State) : (portWrite v s).trace = .wr s.addr.toNat v :: s.trace := rfl
@[simp] theorem portWrite_cfg (v : Byte) (s : State) : (portWrite v s).cfg = s.cfg := rfl
@[simp] theorem portWrite_commands (v : Byte) (s : State) : (portWrite v s).commands = s.commands := rfl

@[simp] theorem portRmw_addr (m v : Byte) (s : State) : (portRmw m v s).addr = s.addr := rfl
@[simp] theorem portRmw_stepReg (m v : Byte) (s : State) : (portRmw m v s).stepReg = s.stepReg := rfl
@[simp] theorem portRmw_err (m v : Byte) (s : State) : (portRmw m v s).err = s.err := rfl
@[simp] theorem portRmw_vram (m v : Byte) (s : State) : (portRmw m v s).vram = s.vram.write s.addr.toNat (rmwByte (s.vram.read s.addr.toNat) m v) := rfl
@[simp] theorem portRmw_trace (m v : Byte) (s : State) : (portRmw m v s).trace = .rmw s.addr.toNat m v :: s.trace := rfl
@[simp] theorem portRmw_cfg (m v : Byte) (s : State) : (portRmw m v s).cfg = s.cfg := rfl
@[simp] theorem portRmw_commands (m v : Byte) (s : State) : (portRmw m v s).commands = s.commands := rfl

@[simp] theorem portAdv_addr (d : Nat) (s : State) : (portAdv d s).addr = s.addr + BitVec.ofNat 16 d := rfl
@[simp] theorem portAdv_stepReg (d : Nat) (s : State) : (portAdv d s).stepReg = s.stepReg := rfl
@[simp] theorem portAdv_err (d : Nat) (s : State) : (portAdv d s).err = s.err := rfl
@[simp] theorem portAdv_vram (d : Nat) (s : State) : (portAdv d s).vram = s.vram := rfl
@[simp] theorem portAdv_trace (d : Nat) (s : State) : (portAdv d s).trace = .adv d :: s.trace := rfl
@[simp] theorem portAdv_cfg (d : Nat) (s : State) : (portAdv d s).cfg = s.cfg := rfl
@[simp] theorem portAdv_commands (d : Nat) (s : State) : (portAdv d s).commands = s.commands := rfl

@[simp] theorem raise_addr (k : ErrorKind) (s : State) : (raise k s).addr = s.addr := rfl
@[simp] theorem raise_stepReg (k : ErrorKind) (s : State) : (raise k s).stepReg = s.stepReg := rfl
@[simp] theorem raise_err (k : ErrorKind) (s : State) : (raise k s).err = k.code := rfl
@[simp] theorem raise_vram (k : ErrorKind) (s : State) : (raise k s).vram = s.vram := rfl
@[simp] theorem raise_trace (k : ErrorKind) (s : State) : (raise k s).trace = s.trace := rfl
@[simp] theorem raise_cfg (k : ErrorKind) (s : State) : (raise k s).cfg = s.cfg := rfl
@[simp] theorem raise_commands (k : ErrorKind) (s : State) : (raise k s).commands = s.commands := rfl

@[simp] theorem complete_addr (s : State) : (complete s).addr = s.addr := rfl
@[simp] theorem complete_stepReg (s : State) : (complete s).stepReg = s.stepReg := rfl
@[simp] theorem complete_err (s : State) : (complete s).err = 0#3 := rfl
@[simp] theorem complete_vram (s : State) : (complete s).vram = s.vram := rfl
@[simp] theorem complete_trace (s : State) : (complete s).trace = s.trace := rfl
@[simp] theorem complete_cfg (s : State) : (complete s).cfg = s.cfg := rfl
@[simp] theorem complete_commands (s : State) : (complete s).commands = s.commands := rfl

@[simp] theorem issue_addr (w : CommandWord) (s : State) : (s.issue w).addr = s.addr := rfl
@[simp] theorem issue_stepReg (w : CommandWord) (s : State) : (s.issue w).stepReg = s.stepReg := rfl
@[simp] theorem issue_err (w : CommandWord) (s : State) : (s.issue w).err = s.err := rfl
@[simp] theorem issue_vram (w : CommandWord) (s : State) : (s.issue w).vram = s.vram := rfl
@[simp] theorem issue_trace (w : CommandWord) (s : State) : (s.issue w).trace = s.trace := rfl
@[simp] theorem issue_cfg (w : CommandWord) (s : State) : (s.issue w).cfg = s.cfg := rfl
@[simp] theorem issue_commands (w : CommandWord) (s : State) : (s.issue w).commands = s.commands ++ [w] := rfl

@[simp] theorem memRead_eq (a : Nat) (s : State) : memRead a s = s.vram.read a := rfl

/-- The trace in order grows at its end. -/
theorem events_of_trace_cons (e : PortEvent) (s t : State) (h : t.trace = e :: s.trace) :
    t.events = s.events ++ [e] := by
  simp [State.events, h]

end Sys2Proof.Machine
end

