-- ==== Sys2Proof/Laws/Ops.lean ====
section
/-! SUPPORT. What each shared operation can do, said once: `command`, `firstError`, `forUp`, `fetch`, `rmwByte`, the
offsets of the nibble addresser, and the scan of a string. -/

namespace Sys2Proof.Machine

/-! ### Checks and commands -/

@[simp] theorem firstError_nil : firstError [] = none := rfl

@[simp] theorem firstError_cons (b : Bool) (k : ErrorKind) (rest : List (Bool × ErrorKind)) :
    firstError ((b, k) :: rest) = if b then some k else firstError rest := rfl

/-- A check that fails: the command raises and does nothing else. -/
theorem command_raises (k : ErrorKind) (reach : Option Nat) (effect : State → State) (s : State) :
    command (some k) reach effect s = .next (raise k s) := rfl

/-- Checks that pass, and a reach inside `VRAM`: the whole effect, then `ERR <- 0`. -/
theorem command_completes (reach : Option Nat) (effect : State → State) (s : State)
    (h : ∀ a, reach = some a → a < s.cfg.surfaceBytes) :
    command none reach effect s = .next (complete (effect s)) := by
  cases reach with
  | none => rfl
  | some a => simp [command, h a rfl]

/-- All that a command can do when it answers a next state. -/
theorem command_cases {check : Option ErrorKind} {reach : Option Nat} {effect : State → State} {s t : State}
    (h : command check reach effect s = .next t) :
    (∃ k, check = some k ∧ t = raise k s) ∨
      (check = none ∧ (∀ a, reach = some a → a < s.cfg.surfaceBytes) ∧ t = complete (effect s)) := by
  cases check with
  | some k =>
    simp only [command, Host.Outcome.next.injEq] at h
    exact Or.inl ⟨k, rfl, h.symm⟩
  | none =>
    simp only [command] at h
    split at h
    · rename_i hr
      simp only [Host.Outcome.next.injEq] at h
      refine Or.inr ⟨rfl, ?_, h.symm⟩
      rintro a rfl
      simpa using hr
    · cases h

/-- A command never refuses, and faults only where its checks pass and its reach lies outside `VRAM`. -/
theorem command_next_of_reach (check : Option ErrorKind) (reach : Option Nat) (effect : State → State) (s : State)
    (h : check = none → ∀ a, reach = some a → a < s.cfg.surfaceBytes) :
    ∃ t, command check reach effect s = .next t := by
  cases check with
  | some k => exact ⟨_, rfl⟩
  | none => exact ⟨_, command_completes reach effect s (h rfl)⟩

/-- No error kind has code 0 or 7. -/
theorem code_ne_zero (k : ErrorKind) : k.code ≠ 0#3 := by cases k <;> decide

theorem code_le_six (k : ErrorKind) : k.code.toNat ≤ 6 := by cases k <;> decide

theorem code_injective {k k' : ErrorKind} (h : k.code = k'.code) : k = k' := by
  cases k <;> cases k' <;> first | rfl | (exfalso; revert h; decide)

/-! ### Loops -/

@[simp] theorem forUp_zero (body : Nat → State → State) (a : Nat) (s : State) : forUp body a 0 s = s := rfl

@[simp] theorem forUp_succ (body : Nat → State → State) (a n : Nat) (s : State) :
    forUp body a (n + 1) s = forUp body (a + 1) n (body a s) := rfl

/-- The loop's last iteration. -/
theorem forUp_snoc (body : Nat → State → State) (a n : Nat) (s : State) :
    forUp body a (n + 1) s = body (a + n) (forUp body a n s) := by
  induction n generalizing a s with
  | zero => simp
  | succ n ih =>
    have h := ih (a + 1) (body a s)
    have e : a + 1 + n = a + (n + 1) := by omega
    rw [e] at h
    exact h

/-- What holds before a loop and is kept by each of its iterations holds after it; the invariant may speak of the loop
variable. -/
theorem forUp_invariant (P : Nat → State → Prop) (body : Nat → State → State) (a n : Nat) (s : State) (h0 : P a s)
    (hstep : ∀ i s, a ≤ i → i < a + n → P i s → P (i + 1) (body i s)) : P (a + n) (forUp body a n s) := by
  induction n with
  | zero => exact h0
  | succ n ih =>
    rw [forUp_snoc]
    exact hstep (a + n) _ (by omega) (by omega) (ih fun i s h1 h2 => hstep i s h1 (by omega))

/-- Bodies that agree give loops that agree. -/
theorem forUp_congr (body body' : Nat → State → State) (a n : Nat) (s : State)
    (h : ∀ i s, a ≤ i → i < a + n → body i s = body' i s) : forUp body a n s = forUp body' a n s := by
  induction n generalizing a s with
  | zero => rfl
  | succ n ih =>
    simp only [forUp_succ]
    rw [h a s (by omega) (by omega)]
    exact ih (a + 1) _ fun i s h1 h2 => h i s (by omega) (by omega)

/-! ### The command port -/

/-- Fetching takes the first word and nothing else. -/
theorem fetch_cons (s : State) (w : CommandWord) (rest : List CommandWord) (h : s.commands = w :: rest) :
    fetch s = some (w, { s with commands := rest }) := by
  simp [fetch, h]

theorem fetch_nil (s : State) (h : s.commands = []) : fetch s = none := by simp [fetch, h]

/-! ### The nibble addresser -/

theorem surfaceBytes_eq (c : Config) : c.surfaceBytes = c.rowBytes * c.height := rfl

/-- What a configuration of the hardware satisfies (R7). -/
theorem cfg_bounds {c : Config} (h : c.wf = true) :
    c.width % 2 = 0 ∧ 2 ≤ c.width ∧ c.width ≤ 65536 ∧ 1 ≤ c.height ∧ c.height ≤ 65536 ∧ c.surfaceBytes ≤ 65535 := by
  simp only [Config.wf, Bool.and_eq_true, decide_eq_true_eq] at h
  obtain ⟨⟨⟨⟨⟨⟨⟨h1, h2⟩, h3⟩, h4⟩, h5⟩, h6⟩, _⟩, _⟩ := h
  exact ⟨h1, h2, h3, h4, h5, h6⟩

theorem rowBytes_twice {c : Config} (h : c.wf = true) : 2 * c.rowBytes = c.width := by
  have := cfg_bounds h
  simp only [Config.rowBytes]
  omega

/-- The offset of a coordinate in range is a `VRAM` address (R92). -/
theorem off_lt {c : Config} (h : c.wf = true) {x y : Nat} (hr : inRange c x y) : off c x y < c.surfaceBytes := by
  have hw := rowBytes_twice h
  have hx : x / 2 < c.rowBytes := by have := hr.1; omega
  have hy : y + 1 ≤ c.height := hr.2
  calc off c x y = y * c.rowBytes + x / 2 := rfl
    _ < y * c.rowBytes + c.rowBytes := by omega
    _ = (y + 1) * c.rowBytes := by ring
    _ ≤ c.height * c.rowBytes := Nat.mul_le_mul_right _ hy
    _ = c.surfaceBytes := by rw [surfaceBytes_eq, Nat.mul_comm]

/-- Two coordinates in range share a byte only if they are a pixel pair (R41). -/
theorem off_eq_iff {c : Config} (h : c.wf = true) {x y x' y' : Nat} (hr : inRange c x y) (hr' : inRange c x' y') :
    off c x y = off c x' y' ↔ x / 2 = x' / 2 ∧ y = y' := by
  have hw := rowBytes_twice h
  have hx : x / 2 < c.rowBytes := by have := hr.1; omega
  have hx' : x' / 2 < c.rowBytes := by have := hr'.1; omega
  constructor
  · intro e
    simp only [off] at e
    have hy : y = y' := by
      rcases Nat.lt_trichotomy y y' with hlt | heq | hgt
      · have : (y + 1) * c.rowBytes ≤ y' * c.rowBytes := Nat.mul_le_mul_right _ hlt
        rw [Nat.add_mul] at this
        omega
      · exact heq
      · have : (y' + 1) * c.rowBytes ≤ y * c.rowBytes := Nat.mul_le_mul_right _ hgt
        rw [Nat.add_mul] at this
        omega
    subst hy
    exact ⟨by omega, rfl⟩
  · rintro ⟨h1, h2⟩
    simp only [off, h1, h2]

/-! ### The scan of a string -/

@[simp] theorem scan_error_clean (n : Nat) : (Scan.clean n).error? = none := rfl
@[simp] theorem scan_error_raises (k : ErrorKind) : (Scan.raises k).error? = some k := rfl
@[simp] theorem scan_count_clean (n : Nat) : (Scan.clean n).count = n := rfl
@[simp] theorem scan_count_raises (k : ErrorKind) : (Scan.raises k).count = 0 := rfl

/-- One character of the scan (R113). -/
theorem scanFrom_succ (c : Config) (p x y fuel n : Nat) :
    scanFrom c p x y (fuel + 1) n =
      if textRead c (p + n) = 0#8 then .clean n
      else if ¬ boxInRange c (x + 8 * n) y then .raises .addressOutOfRange
      else if ¬ covered (textRead c (p + n)).toNat then .raises .invalidCharacter
      else scanFrom c p x y fuel (n + 1) := rfl

end Sys2Proof.Machine
end

