-- ==== Sys2Proof/Laws/PerInstr.lean ====
section
/-! SUPPORT. Statements made of every command, one lemma per constructor of `Instr`. -/

namespace Sys2Proof.Laws.Disassembles

open Sys2Proof

/-- The source form of a command (spec/30_encoding.md rule R68) has the command's mnemonic and operands that fit its fields,
and the low byte of its word is the mnemonic's opcode (R64). -/
def Statement (i : Instr) : Prop :=
  (Assembler.disassemble i).mnemonic = i.mnemonic ∧ (Assembler.disassemble i).wf = true ∧
    (encode i).extractLsb 7 0 = i.mnemonic.opcode

/-- A list of numbers that are the values of bit vectors of the widths asked fits. -/
theorem fits_cons {w : Nat} (v : BitVec w) (ws ns : List Nat) (h : operandsFit ws ns = true) :
    operandsFit (w :: ws) (v.toNat :: ns) = true := by
  simp [operandsFit, h, v.isLt]

theorem fits_nil : operandsFit [] [] = true := rfl

theorem setaddr (a : Half) : Statement (.setaddr a) :=
  ⟨rfl, fits_cons a _ _ fits_nil, encode_opcode _⟩

theorem setstep (n : BitVec 1) : Statement (.setstep n) :=
  ⟨rfl, fits_cons n _ _ fits_nil, encode_opcode _⟩

theorem wrbyte (v : Byte) : Statement (.wrbyte v) :=
  ⟨rfl, fits_cons v _ _ fits_nil, encode_opcode _⟩

theorem rmw (m v : Byte) : Statement (.rmw m v) :=
  ⟨rfl, fits_cons m _ _ (fits_cons v _ _ fits_nil), encode_opcode _⟩

theorem clear (color : Byte) : Statement (.clear color) :=
  ⟨rfl, fits_cons color _ _ fits_nil, encode_opcode _⟩

theorem setpixel (x y : Half) (color : Byte) : Statement (.setpixel x y color) :=
  ⟨rfl, fits_cons x _ _ (fits_cons y _ _ (fits_cons color _ _ fits_nil)), encode_opcode _⟩

theorem drawline (x0 y0 x1 y1 : Half) (color : Byte) : Statement (.drawline x0 y0 x1 y1 color) :=
  ⟨rfl,
    fits_cons x0 _ _ (fits_cons y0 _ _ (fits_cons x1 _ _ (fits_cons y1 _ _ (fits_cons color _ _ fits_nil)))),
    encode_opcode _⟩

theorem drawglyph (g : Glyph) (x y : Half) (fg bg : Byte) : Statement (.drawglyph g x y fg bg) :=
  ⟨rfl,
    fits_cons g.g0 _ _ (fits_cons g.g1 _ _ (fits_cons g.g2 _ _ (fits_cons g.g3 _ _ (fits_cons g.g4 _ _
      (fits_cons g.g5 _ _ (fits_cons g.g6 _ _ (fits_cons g.g7 _ _ (fits_cons x _ _ (fits_cons y _ _
        (fits_cons fg _ _ (fits_cons bg _ _ fits_nil))))))))))),
    encode_opcode _⟩

theorem drawstring (p x y : Half) (fg bg : Byte) : Statement (.drawstring p x y fg bg) :=
  ⟨rfl,
    fits_cons p _ _ (fits_cons x _ _ (fits_cons y _ _ (fits_cons fg _ _ (fits_cons bg _ _ fits_nil)))),
    encode_opcode _⟩

end Sys2Proof.Laws.Disassembles
end

