-- ==== Sys2Proof/Laws/Pixels.lean ====
section
/-! SUPPORT. What the pixel operations do, said once: one nibble written through `rmwByte`, a list of dots painted on a
video memory, and the effect parts `pixelEffect` and `glyphBody` as dots painted and events logged. -/

namespace Sys2Proof.Machine

/-! ### One byte -/

/-- A colour that is legal has no bit above bit 3. -/
theorem legalColor_high_bit {c : Byte} (h : legalColor c) (i : Nat) (hi : 4 ≤ i) : c.getLsbD i = false := by
  rw [BitVec.getLsbD]
  apply Nat.testBit_lt_two_pow
  calc c.toNat < 2 ^ 4 := by have : c.toNat ≤ 15 := h; omega
    _ ≤ 2 ^ i := Nat.pow_le_pow_right (by omega) hi

theorem legalColor_setWidth {c : Byte} (h : legalColor c) : (c.setWidth 4).toNat = c.toNat := by
  have : c.toNat ≤ 15 := h
  simp only [BitVec.toNat_setWidth]
  omega

/-- A byte is its two nibbles. -/
theorem byte_split (b : Byte) : b = b.extractLsb 7 4 ++ b.extractLsb 3 0 := by
  apply BitVec.eq_of_getLsbD_eq
  intro i hi
  rw [BitVec.getLsbD_append]
  interval_cases i <;> simp

theorem rmwByte_high_of_high (old c : Byte) : (rmwByte old 0xF0#8 (c <<< 4)).extractLsb 7 4 = c.setWidth 4 := by
  apply BitVec.eq_of_getLsbD_eq
  intro i hi
  have : i < 4 := by omega
  interval_cases i <;> simp [rmwByte]

theorem rmwByte_low_of_high (old c : Byte) :
    (rmwByte old 0xF0#8 (c <<< 4)).extractLsb 3 0 = old.extractLsb 3 0 := by
  apply BitVec.eq_of_getLsbD_eq
  intro i hi
  have : i < 4 := by omega
  interval_cases i <;> simp [rmwByte]

theorem rmwByte_low_of_low (old c : Byte) : (rmwByte old 0x0F#8 c).extractLsb 3 0 = c.setWidth 4 := by
  apply BitVec.eq_of_getLsbD_eq
  intro i hi
  have : i < 4 := by omega
  interval_cases i <;> simp [rmwByte]

theorem rmwByte_high_of_low (old : Byte) {k : Byte} (h : legalColor k) :
    (rmwByte old 0x0F#8 k).extractLsb 7 4 = old.extractLsb 7 4 := by
  have e := legalColor_high_bit h
  apply BitVec.eq_of_getLsbD_eq
  intro i hi
  have : i < 4 := by omega
  have h4 : k[4] = false := by simpa using e 4 (by omega)
  have h5 : k[5] = false := by simpa using e 5 (by omega)
  have h6 : k[6] = false := by simpa using e 6 (by omega)
  have h7 : k[7] = false := by simpa using e 7 (by omega)
  interval_cases i <;> simp [rmwByte, h4, h5, h6, h7]

/-- The two columns of a pair: nibble, mask and value (R91, R93). -/
theorem column_cases (x : Nat) :
    (x % 2 = 0 ∧ nib x = .hi ∧ pmask x = 0xF0#8 ∧ ∀ c, pval x c = c <<< 4) ∨
      (x % 2 = 1 ∧ nib x = .lo ∧ pmask x = 0x0F#8 ∧ ∀ c, pval x c = c) := by
  by_cases h : x % 2 = 0
  · exact Or.inl ⟨h, by simp [nib, h], by simp [pmask, nib, h], fun c => by simp [pval, nib, h]⟩
  · exact Or.inr ⟨by omega, by simp [nib, h], by simp [pmask, nib, h], fun c => by simp [pval, nib, h]⟩

/-! ### Dots -/

/-- A column, a row and a colour. -/
abbrev Dot := Nat × Nat × Byte

/-- A dot whose coordinate is in range and whose colour is legal. -/
def Dot.legal (c : Config) (d : Dot) : Prop := inRange c d.1 d.2.1 ∧ legalColor d.2.2

/-- One dot painted on a video memory: the read-modify-write of R95. -/
def paint (c : Config) (d : Dot) (vram : Memory) : Memory :=
  vram.write (off c d.1 d.2.1) (rmwByte (vram.read (off c d.1 d.2.1)) (pmask d.1) (pval d.1 d.2.2))

/-- Dots painted one after another. -/
def paintAll (c : Config) : List Dot → Memory → Memory
  | [], vram => vram
  | d :: rest, vram => paintAll c rest (paint c d vram)

theorem paintAll_append (c : Config) (ds es : List Dot) (vram : Memory) :
    paintAll c (ds ++ es) vram = paintAll c es (paintAll c ds vram) := by
  induction ds generalizing vram with
  | nil => rfl
  | cons d rest ih => exact ih (paint c d vram)

/-- A dot shows at its own coordinate and nowhere else. -/
theorem pixel_paint {c : Config} (hc : c.wf = true) {vram : Memory} (hv : vram.wf = true) {d : Dot} (hd : d.legal c)
    {x y : Nat} (hr : inRange c x y) :
    pixel c (paint c d vram) x y = if x = d.1 ∧ y = d.2.1 then d.2.2.setWidth 4 else pixel c vram x y := by
  obtain ⟨a, b, k⟩ := d
  simp only [pixel, paint, Memory.read_write vram hv]
  by_cases ho : off c x y = off c a b
  · have hp := (off_eq_iff hc hr hd.1).1 ho
    simp only [ho, if_true]
    rcases column_cases x with ⟨hx, hn, -, -⟩ | ⟨hx, hn, -, -⟩ <;>
      rcases column_cases a with ⟨ha, hna, hm, hv⟩ | ⟨ha, hna, hm, hv⟩
    · have he : x = a ∧ y = b := ⟨by omega, hp.2⟩
      simp only [he, hna, hm, hv, rmwByte_high_of_high, and_self, if_true]
    · have he : ¬ (x = a ∧ y = b) := by omega
      simp only [he, hn, hm, hv, if_false]
      exact rmwByte_high_of_low _ hd.2
    · have he : ¬ (x = a ∧ y = b) := by omega
      simp only [he, hn, hm, hv, if_false]
      exact rmwByte_low_of_high _ _
    · have he : x = a ∧ y = b := ⟨by omega, hp.2⟩
      simp only [he, hna, hm, hv, rmwByte_low_of_low, and_self, if_true]
  · have he : ¬ (x = a ∧ y = b) := by rintro ⟨rfl, rfl⟩; exact ho rfl
    simp only [ho, he, if_false]

/-- A legal dot keeps the video memory one of `SBC` bytes in canonical form. -/
theorem wfSized_paint {c : Config} (hc : c.wf = true) {d : Dot} (hd : d.legal c) {vram : Memory}
    (hv : vram.wfSized c.surfaceBytes = true) : (paint c d vram).wfSized c.surfaceBytes = true :=
  Memory.wfSized_write _ _ _ _ hv (off_lt hc hd.1)

theorem wfSized_paintAll {c : Config} (hc : c.wf = true) {ds : List Dot} (hd : ∀ d ∈ ds, Dot.legal c d) {vram : Memory}
    (hv : vram.wfSized c.surfaceBytes = true) : (paintAll c ds vram).wfSized c.surfaceBytes = true := by
  induction ds generalizing vram with
  | nil => exact hv
  | cons d rest ih =>
    simp only [List.mem_cons, forall_eq_or_imp] at hd
    exact ih hd.2 (wfSized_paint hc hd.1 hv)

/-- The colour of the last dot at a coordinate, none if no dot lies there. -/
def lastDot (x y : Nat) : List Dot → Option Byte
  | [] => none
  | d :: rest =>
    match lastDot x y rest with
    | some k => some k
    | none => if x = d.1 ∧ y = d.2.1 then some d.2.2 else none

/-- The last dot at a coordinate shows there. -/
theorem pixel_paintAll {c : Config} (hc : c.wf = true) {ds : List Dot} (hd : ∀ d ∈ ds, Dot.legal c d) {vram : Memory}
    (hv : vram.wfSized c.surfaceBytes = true) {x y : Nat} (hr : inRange c x y) :
    pixel c (paintAll c ds vram) x y =
      match lastDot x y ds with
      | some k => k.setWidth 4
      | none => pixel c vram x y := by
  induction ds generalizing vram with
  | nil => rfl
  | cons d rest ih =>
    simp only [List.mem_cons, forall_eq_or_imp] at hd
    simp only [paintAll, lastDot]
    rw [ih hd.2 (wfSized_paint hc hd.1 hv)]
    cases lastDot x y rest with
    | some k => rfl
    | none =>
      simp only [pixel_paint hc (Memory.wf_of_wfSized hv) hd.1 hr]
      split <;> rfl

theorem lastDot_none {x y : Nat} {ds : List Dot} (h : ∀ d ∈ ds, ¬ (x = d.1 ∧ y = d.2.1)) : lastDot x y ds = none := by
  induction ds with
  | nil => rfl
  | cons d rest ih =>
    simp only [List.mem_cons, forall_eq_or_imp] at h
    simp only [lastDot, ih h.2, if_neg h.1]

theorem lastDot_some {x y : Nat} {k : Byte} {ds : List Dot} (h : ∀ d ∈ ds, x = d.1 ∧ y = d.2.1 → d.2.2 = k)
    (he : ∃ d ∈ ds, x = d.1 ∧ y = d.2.1) : lastDot x y ds = some k := by
  induction ds with
  | nil => simp at he
  | cons d rest ih =>
    simp only [List.mem_cons, forall_eq_or_imp] at h
    simp only [lastDot]
    by_cases hr : ∃ d ∈ rest, x = d.1 ∧ y = d.2.1
    · rw [ih h.2 hr]
    · rw [lastDot_none fun d hd hxy => hr ⟨d, hd, hxy⟩]
      simp only [List.mem_cons, exists_eq_or_imp] at he
      rcases he with he | he
      · simp [he, h.1 he]
      · exact absurd he hr

/-- A byte no dot lies in reads as before. -/
theorem read_paintAll_of_ne {c : Config} {ds : List Dot} {vram : Memory} (hv : vram.wf = true) {a : Nat}
    (ha : ∀ d ∈ ds, a ≠ off c d.1 d.2.1) : (paintAll c ds vram).read a = vram.read a := by
  induction ds generalizing vram with
  | nil => rfl
  | cons d rest ih =>
    simp only [List.mem_cons, forall_eq_or_imp] at ha
    rw [paintAll, ih (vram := paint c d vram) (Memory.wf_write _ hv _ _) ha.2, paint, Memory.read_write vram hv,
      if_neg ha.1]

/-- Each byte of the surface is the pair of an even column and the next one (R41). -/
theorem exists_pair_of_byte {c : Config} (hc : c.wf = true) {a : Nat} (ha : a < c.surfaceBytes) :
    ∃ x y, inRange c x y ∧ inRange c (x + 1) y ∧ x % 2 = 0 ∧ off c x y = a ∧ off c (x + 1) y = a := by
  have hw := rowBytes_twice hc
  have hb := cfg_bounds hc
  have hrb : 0 < c.rowBytes := by omega
  have hm := Nat.mod_lt a hrb
  have hd := Nat.div_add_mod a c.rowBytes
  have hy : a / c.rowBytes < c.height := Nat.div_lt_of_lt_mul (by rw [surfaceBytes_eq] at ha; exact ha)
  refine ⟨2 * (a % c.rowBytes), a / c.rowBytes, ⟨by omega, hy⟩, ⟨by omega, hy⟩, by omega, ?_, ?_⟩ <;>
    · simp only [off]
      rw [Nat.mul_comm]
      omega

/-- Two video memories of `SBC` bytes that show the same pixels are equal. -/
theorem vram_ext {c : Config} (hc : c.wf = true) {v w : Memory} (hv : v.wfSized c.surfaceBytes = true)
    (hw : w.wfSized c.surfaceBytes = true) (h : ∀ x y, inRange c x y → pixel c v x y = pixel c w x y) : v = w := by
  apply Memory.ext_wf _ _ (Memory.wf_of_wfSized hv) (Memory.wf_of_wfSized hw)
  intro a
  simp only [Memory.wfSized, Bool.and_eq_true] at hv hw
  by_cases ha : a < c.surfaceBytes
  · obtain ⟨x, y, h1, h2, hx, ho1, ho2⟩ := exists_pair_of_byte hc ha
    have e1 := h x y h1
    have e2 := h (x + 1) y h2
    have n1 : nib x = .hi := by simp [nib, hx]
    have n2 : nib (x + 1) = .lo := by simp only [nib]; rw [if_neg (by omega)]
    simp only [pixel, n1, n2, ho1, ho2] at e1 e2
    rw [byte_split (v.read a), byte_split (w.read a), e1, e2]
  · rw [Memory.read_ge_of_below _ _ _ hv.2 (by omega), Memory.read_ge_of_below _ _ _ hw.2 (by omega)]

/-! ### Effect parts that paint dots -/

/-- From `s` to `t` the dots are painted in order, the events are logged, `STEP` is 0 and `ADDR` is `addr`; nothing else
changes. -/
structure Draws (s t : State) (dots : List Dot) (evs : List PortEvent) (addr : Nat) : Prop where
  vram : t.vram = paintAll s.cfg dots s.vram
  events : t.events = s.events ++ evs
  cfg : t.cfg = s.cfg
  commands : t.commands = s.commands
  err : t.err = s.err
  step : t.stepReg = 0#1
  addr : t.addr.toNat = addr

theorem Draws.trans {s t u : State} {ds es : List Dot} {e f : List PortEvent} {a b : Nat} (h : Draws s t ds e a)
    (h' : Draws t u es f b) : Draws s u (ds ++ es) (e ++ f) b where
  vram := by rw [h'.vram, h.vram, h.cfg, paintAll_append]
  events := by rw [h'.events, h.events, List.append_assoc]
  cfg := h'.cfg.trans h.cfg
  commands := h'.commands.trans h.commands
  err := h'.err.trans h.err
  step := h'.step
  addr := h'.addr

/-- What a completed drawing leaves beside `VRAM`. -/
theorem Draws.leaves {s t : State} {ds : List Dot} {e : List PortEvent} {a : Nat} (h : Draws s t ds e a) :
    Leaves s (complete t) a 0#1 e :=
  ⟨h.addr, h.step, rfl, h.events, h.cfg, h.commands⟩

/-- All that the effect part of SETPIXEL does (R95). -/
theorem draws_pixelEffect (s : State) (hc : s.cfg.wf = true) (x y : Nat) (k : Byte) (hr : inRange s.cfg x y) :
    Draws s (pixelEffect x y k s) [(x, y, k)] (pixelEvents s.cfg x y k) (off s.cfg x y) := by
  have h1 := off_lt hc hr
  have h2 := cfg_bounds hc
  have h3 : off s.cfg x y % 65536 = off s.cfg x y := by omega
  constructor <;> simp [pixelEffect, State.events, paintAll, paint, pixelEvents, h3]

/-- A loop of at least one drawing. -/
theorem draws_forUp (body : Nat → State → State) (dots : Nat → List Dot) (evs : Nat → List PortEvent)
    (addr : Nat → Nat) (c : Config) (a n : Nat) (s : State) (hs : s.cfg = c)
    (h : ∀ i s, a ≤ i → i < a + n + 1 → s.cfg = c → Draws s (body i s) (dots i) (evs i) (addr i)) :
    Draws s (forUp body a (n + 1) s) ((List.range' a (n + 1)).flatMap dots) ((List.range' a (n + 1)).flatMap evs)
      (addr (a + n)) := by
  induction n with
  | zero => simpa using h a s (by omega) (by omega) hs
  | succ n ih =>
    rw [forUp_snoc, List.range'_concat, List.flatMap_append, List.flatMap_append]
    have h1 := ih fun i s h1 h2 => h i s h1 (by omega)
    have h2 := h (a + (n + 1)) _ (by omega) (by omega) (h1.cfg.trans hs)
    simpa using h1.trans h2

/-- The dots of a glyph, in row-major order. -/
def glyphDots (g : Glyph) (x y : Nat) (fg bg : Byte) : List Dot :=
  (List.range 8).flatMap fun r => (List.range 8).flatMap fun k => [(x + k, y + r, gcol g r k fg bg)]

/-- All that the glyph body does (R114). -/
theorem draws_glyphBody (g : Glyph) (x y : Nat) (fg bg : Byte) (s : State) (hc : s.cfg.wf = true)
    (hr : boxInRange s.cfg x y) :
    Draws s (glyphBody g x y fg bg s) (glyphDots g x y fg bg) (glyphEvents s.cfg g x y fg bg)
      (off s.cfg (x + 7) (y + 7)) := by
  have := draws_forUp (fun r => forUp (fun c => pixelEffect (x + c) (y + r) (gcol g r c fg bg)) 0 8)
    (fun r => (List.range 8).flatMap fun k => [(x + k, y + r, gcol g r k fg bg)])
    (fun r => (List.range 8).flatMap fun k => pixelEvents s.cfg (x + k) (y + r) (gcol g r k fg bg))
    (fun r => off s.cfg (x + 7) (y + r)) s.cfg 0 7 s rfl ?_
  · simpa [List.range_eq_range', glyphBody, glyphDots, glyphEvents] using this
  · intro r s' _ hr' hs'
    have := draws_forUp (fun c => pixelEffect (x + c) (y + r) (gcol g r c fg bg))
      (fun k => [(x + k, y + r, gcol g r k fg bg)])
      (fun k => pixelEvents s.cfg (x + k) (y + r) (gcol g r k fg bg))
      (fun k => off s.cfg (x + k) (y + r)) s.cfg 0 7 s' hs' ?_
    · simpa [List.range_eq_range'] using this
    · intro k s'' _ hk hs''
      have hd := draws_pixelEffect s'' (hs'' ▸ hc) (x + k) (y + r) (gcol g r k fg bg)
        (by rw [hs'']; exact ⟨by have := hr.1; omega, by have := hr.2; omega⟩)
      rwa [hs''] at hd

/-! ### Raising and illegal words -/

/-- All that an illegal word does (R66, R126, R129). -/
theorem illegalCommand_eq (s : State) : illegalCommand s = .next { s with err := 6#3 } := rfl

/-- All that raising does (R129). -/
theorem raise_eq (k : ErrorKind) (s : State) : raise k s = { s with err := k.code } := rfl

/-- The memory of the reset state is in canonical form, and so is that of reset with any canonical contents. -/
theorem reset_vram_wf : State.reset.vram.wf = true := rfl

theorem resetWith_vram_wf (cfg : Config) (vram : Memory) (h : vram.wf = true) :
    (State.resetWith cfg vram).vram.wf = true := h

end Sys2Proof.Machine
end

