-- ==== Sys2Proof/Laws/Runs.lean ====
section
/-! SUPPORT. The small lemmas of sequences of commands: `execAll`, `results` and `safeRun` on an empty sequence, on a
command that answers a next state, and on two sequences one after the other. -/

namespace Sys2Proof.Machine

@[simp] theorem execAll_nil (s : State) : execAll [] s = .next s := rfl
@[simp] theorem results_nil (s : State) : results [] s = [] := rfl
@[simp] theorem safeRun_nil (s : State) : safeRun [] s := rfl

theorem execAll_cons_of_next {i : Instr} {s t : State} (h : exec i s = .next t) (rest : List Instr) :
    execAll (i :: rest) s = execAll rest t := by
  simp only [execAll, h]

theorem results_cons_of_next {i : Instr} {s t : State} (h : exec i s = .next t) (rest : List Instr) :
    results (i :: rest) s = t.err :: results rest t := by
  simp only [results, h, State.result]

/-- A sequence goes well exactly when its first command does and the rest does from the state it leaves. -/
theorem safeRun_cons_of_next {i : Instr} {s t : State} (h : exec i s = .next t) (rest : List Instr) :
    safeRun (i :: rest) s ↔ t.err = 0#3 ∧ safeRun rest t := by
  simp only [safeRun, results_cons_of_next h, List.map_cons, List.cons.injEq, okCode]

theorem execAll_append_of_next {is : List Instr} {s t : State} (h : execAll is s = .next t) (rest : List Instr) :
    execAll (is ++ rest) s = execAll rest t := by
  induction is generalizing s with
  | nil => cases h; rfl
  | cons i is ih =>
    simp only [List.cons_append, execAll] at h ⊢
    split at h
    · exact ih h
    · cases h
    · cases h

theorem safeRun_append_of_next {is : List Instr} {s t : State} (h : execAll is s = .next t) (hs : safeRun is s)
    {rest : List Instr} (hr : safeRun rest t) : safeRun (is ++ rest) s := by
  induction is generalizing s with
  | nil => cases h; exact hr
  | cons i is ih =>
    cases he : exec i s with
    | next u =>
      rw [execAll_cons_of_next he] at h
      rw [safeRun_cons_of_next he] at hs
      rw [List.cons_append, safeRun_cons_of_next he]
      exact ⟨hs.1, ih h hs.2⟩
    | fault r => simp only [execAll, he] at h; cases h
    | refused r => simp only [execAll, he] at h; cases h

end Sys2Proof.Machine
end

