-- ==== Sys2Proof/Tests/Slice0.lean ====
section
/-! SUPPORT. Tests of the model. Expected values come from spec/95_test_vectors.md (the vector's name stands at each test)
and from the worked encodings of spec/30_encoding.md rule R71. The witnesses at the end show, for every statement with
hypotheses, a concrete state and operands that meet them. -/

namespace Sys2Proof.Tests

open Sys2Proof Sys2Proof.Machine

/-! ## Helpers -/

/-- Bytes stored at consecutive addresses. -/
def bytesAt (a : Nat) : List Nat → Memory → Memory
  | [], m => m
  | b :: rest, m => bytesAt (a + 1) rest (m.write a (BitVec.ofNat 8 b))

/-- The test font of spec/95_test_vectors.md: an "H" and an "I". -/
def testFont : Memory :=
  bytesAt 320 [0x66, 0x66, 0x66, 0x7E, 0x66, 0x66, 0x66, 0x00, 0x3C, 0x18, 0x18, 0x18, 0x18, 0x18, 0x3C, 0x00] []

/-- The strings of section 2.6 of spec/95_test_vectors.md that the tests use. -/
def testText : Memory :=
  bytesAt 0x200 [0x48, 0x49] (bytesAt 0x210 [0x48] (bytesAt 0x230 [0x48, 0x49, 0x48]
    (bytesAt 0x240 [0x48, 0x68] (bytesAt 0x260 [0x48, 0x1F] (bytesAt 0x270 [0x48, 0x49, 0x0A] [])))))

/-- The small instance of R8 with the test font and strings. -/
def small : Config := Config.small testFont testText

/-- Reset on the small instance, every byte of `VRAM` 0. -/
def s0 : State := State.resetWith small []

/-- After `SETADDR 11`, `SETSTEP 1` from `s0` (P2, commands 1 to 7 leave `ADDR = 11`). -/
def sStepping : State := { s0 with addr := 11#16, stepReg := 1#1, trace := [.ss 1#1, .sa 11] }

/-- After `SETADDR 63`, `SETSTEP 1` from `s0`: the last byte of `VRAM`. -/
def sLast : State := { s0 with addr := 63#16, stepReg := 1#1, trace := [.ss 1#1, .sa 63] }

/-- After `WRBYTE 0xEE` from `sLast` (P2, command 13): `ADDR = SBC`. -/
def sPast : State :=
  { s0 with addr := 64#16, stepReg := 1#1, vram := [(63, 0xEE#8)], trace := [.wr 63 0xEE#8, .ss 1#1, .sa 63] }

/-- The glyph "H" of spec/95_test_vectors.md. -/
def glyphH : Glyph := ⟨0x66#8, 0x66#8, 0x66#8, 0x7E#8, 0x66#8, 0x66#8, 0x66#8, 0x00#8⟩

/-- A result is a next state of which `p` holds. -/
def answers (r : Result) (p : State → Bool) : Bool :=
  match r with
  | .next t => p t
  | .fault _ | .refused _ => false

theorem exists_of_answers {r : Result} {p : State → Bool} (h : answers r p = true) : ∃ t, r = .next t ∧ p t = true := by
  cases r with
  | next t => exact ⟨t, rfl, h⟩
  | fault _ => cases h
  | refused _ => cases h

/-- A command that raises: its code, and that nothing else changed. -/
def raises (i : Instr) (s : State) (code : BitVec 3) : Bool :=
  answers (exec i s) fun t => t == { s with err := code }

/-! ## Well-formedness: one ill-formed term for each check -/

theorem test_wf_rises : Memory.wf [(3, 1#8), (3, 2#8)] = false := by decide
theorem test_wf_no_unlisted_value : Memory.wf [(3, 0#8)] = false := by decide
theorem test_wf_below : Memory.wfSized 64 [(64, 1#8)] = false := by decide
theorem test_wf_sized_form : Memory.wfSized 64 [(5, 1#8), (4, 1#8)] = false := by decide
theorem test_wf_good_memory : Memory.wfSized 64 [(0, 1#8), (63, 0xFF#8)] = true := by decide
theorem test_wf_odd_width : Config.wf { small with width := 15 } = false := by decide
theorem test_wf_width_low : Config.wf { small with width := 0 } = false := by decide
theorem test_wf_width_high : Config.wf { small with width := 65538, height := 1 } = false := by decide
theorem test_wf_height_low : Config.wf { small with height := 0 } = false := by decide
theorem test_wf_height_high : Config.wf { small with width := 2, height := 65537 } = false := by decide
theorem test_wf_surface : Config.wf { small with width := 2, height := 65536 } = false := by decide
theorem test_wf_surface_largest : Config.wf { small with width := 2, height := 65535 } = true := by decide
theorem test_wf_font_size : Config.wf { small with font := [(512, 1#8)] } = false := by decide
theorem test_wf_font_form : Config.wf { small with font := [(5, 0#8)] } = false := by decide
theorem test_wf_text_size : Config.wf { small with text := [(65536, 1#8)] } = false := by decide
theorem test_wf_text_form : Config.wf { small with text := [(9, 1#8), (8, 1#8)] } = false := by decide
theorem test_wf_reference : Config.wf Config.reference = true := by decide
/-- R68: `SETSTEP 2` is an assembly error. -/
theorem test_source_setstep_2 : SourceCommand.wf ⟨.setstep, [2]⟩ = false := by decide
/-- R68: `SETPIXEL 70000, 0, 1` is an assembly error. -/
theorem test_source_setpixel_70000 : SourceCommand.wf ⟨.setpixel, [70000, 0, 1]⟩ = false := by decide
theorem test_source_too_few : SourceCommand.wf ⟨.rmw, [1]⟩ = false := by decide
theorem test_source_too_many : SourceCommand.wf ⟨.clear, [1, 2]⟩ = false := by decide

/-! ## Decoding: words written out from R71 and from E2, E3 of spec/95_test_vectors.md -/

/-- The sixteen bytes of a word whose bytes from some point on are 0. -/
def word (bytes : List Nat) : List Byte := (bytes.map (BitVec.ofNat 8)) ++ List.replicate (16 - bytes.length) 0#8

/-- R71: `SETADDR 38399`. -/
theorem test_decode_setaddr : decodeBytes (word [0x01, 0xFF, 0x95]) = .command (.setaddr 38399#16) := by decide
/-- R71: `SETSTEP 1`. -/
theorem test_decode_setstep : decodeBytes (word [0x02, 0x01]) = .command (.setstep 1#1) := by decide
/-- R71: `WRBYTE 0x77`. -/
theorem test_decode_wrbyte : decodeBytes (word [0x03, 0x77]) = .command (.wrbyte 0x77#8) := by decide
/-- E2: `RMW 0x0F, 0x09`. -/
theorem test_decode_rmw : decodeBytes (word [0x04, 0x0F, 0x09]) = .command (.rmw 0x0F#8 0x09#8) := by decide
/-- P4, command 7: `CLEAR 0x13`, a word that decodes and raises InvalidColor. -/
theorem test_decode_clear : decodeBytes (word [0x10, 0x13]) = .command (.clear 0x13#8) := by decide
/-- R71: `SETPIXEL 5, 2, 7`. -/
theorem test_decode_setpixel :
    decodeBytes (word [0x11, 0x05, 0x00, 0x02, 0x00, 0x07]) = .command (.setpixel 5#16 2#16 7#8) := by decide
/-- E2: `DRAWLINE 1, 239, 318, 239, 7`. -/
theorem test_decode_drawline :
    decodeBytes (word [0x20, 0x01, 0x00, 0xEF, 0x00, 0x3E, 0x01, 0xEF, 0x00, 0x07]) =
      .command (.drawline 1#16 239#16 318#16 239#16 7#8) := by decide
/-- E2: `DRAWGLYPH` of the diagonal, at `8, 0`, colours `0, 1`. -/
theorem test_decode_drawglyph :
    decodeBytes (word [0x30, 0x08, 0, 0, 0, 0, 0x01, 0x80, 0x40, 0x20, 0x10, 0x08, 0x04, 0x02, 0x01]) =
      .command (.drawglyph ⟨0x80#8, 0x40#8, 0x20#8, 0x10#8, 0x08#8, 0x04#8, 0x02#8, 0x01#8⟩ 8#16 0#16 0#8 1#8) := by
  decide
/-- R71: `DRAWSTRING 0x0200, 8, 16, 15, 1`. -/
theorem test_decode_drawstring :
    decodeBytes (word [0x31, 0x00, 0x02, 0x08, 0x00, 0x10, 0x00, 0x0F, 0x01]) =
      .command (.drawstring 0x200#16 8#16 16#16 15#8 1#8) := by decide
/-- E3: the all-zero word, and opcodes `0x05`, `0x12`, `0x21`, `0x32`, `0xFF`. -/
theorem test_decode_undefined_opcodes :
    [0x00, 0x05, 0x12, 0x21, 0x32, 0xFF].map (fun o => decodeBytes (word [o])) =
      [0x00#8, 0x05#8, 0x12#8, 0x21#8, 0x32#8, 0xFF#8].map (fun o => .illegal (.undefinedOpcode o)) := by decide
/-- E3: the all-ones word. -/
theorem test_decode_all_ones :
    decodeBytes (List.replicate 16 0xFF#8) = .illegal (.undefinedOpcode 0xFF#8) := by decide
/-- E3: SETSTEP with bit 9 set (a "step of 2", a "step of 3"). -/
theorem test_decode_setstep_reserved :
    decodeBytes (word [0x02, 0x02]) = .illegal (.reservedBit .setstep) ∧
      decodeBytes (word [0x02, 0x03]) = .illegal (.reservedBit .setstep) := by decide
/-- E3: the reserved bits of the other formats (bit 16, 24, 48, 80, 72, byte 15, bit 127). -/
theorem test_decode_reserved_bits :
    [ decodeBytes (word [0x03, 0x77, 0x01]), decodeBytes (word [0x01, 0, 0, 0x01]),
      decodeBytes (word [0x11, 0x05, 0, 0x02, 0, 0x07, 0x01]),
      decodeBytes (word [0x20, 0, 0, 0, 0, 0, 0, 0, 0, 0, 0x01]),
      decodeBytes (word [0x31, 0, 0, 0, 0, 0, 0, 0, 0, 0x01]),
      decodeBytes (word [0x30, 0, 0, 0, 0, 0x01, 0, 0, 0, 0, 0, 0, 0, 0, 0, 0x01]),
      decodeBytes (word [0x10, 0, 0, 0, 0, 0, 0, 0, 0, 0, 0, 0, 0, 0, 0, 0x80]) ] =
    [ .illegal (.reservedBit .wrbyte), .illegal (.reservedBit .setaddr), .illegal (.reservedBit .setpixel),
      .illegal (.reservedBit .drawline), .illegal (.reservedBit .drawstring), .illegal (.reservedBit .drawglyph),
      .illegal (.reservedBit .clear) ] := by decide
/-- R67: every command has one length. -/
theorem test_decode_fifteen_bytes : decodeBytes (List.replicate 15 0x01#8) = .illegal (.notSixteenBytes 15) := by decide
/-- R71 through the host's numbering of an instruction's bits: `RMW 0xF0, 0x70`. -/
theorem test_decodeTableWord_rmw : decodeTableWord 24 0x70F004 = some (.rmw 0xF0#8 0x70#8) := by decide
theorem test_decodeTableWord_illegal : decodeTableWord 128 (2 ^ 127 + 0x10) = none := by decide
/-- E2: the encoder on a line. -/
theorem test_encode_drawline :
    wordBytes (encode (.drawline 318#16 0#16 318#16 239#16 7#8)) =
      word [0x20, 0x3E, 0x01, 0x00, 0x00, 0x3E, 0x01, 0xEF, 0x00, 0x07] := by decide

/-! ## Assembler (R68) -/

theorem test_assemble_rmw : Assembler.assembleLine "RMW 0x0F, 0x09".toList = .command 0x090F04#128 := by decide
theorem test_assemble_comment : Assembler.assembleLine "; a comment".toList = .comment := by decide
theorem test_assemble_setstep_2 : Assembler.assembleLine "SETSTEP 2".toList = .error := by decide
theorem test_assemble_unknown : Assembler.assembleLine "NOP".toList = .error := by decide

/-! ## Reset and the step -/

theorem test_step_idle : step State.reset = .next State.reset := rfl
/-- E3, R126: an illegal word. -/
theorem test_step_illegal :
    answers (step (s0.withFetchWord 128 0x05)) (fun t => t == { s0 with err := 6#3 }) = true := by decide
/-- R7: a configuration outside the constraints is refused. -/
theorem test_step_bad_config :
    step { s0 with cfg := { small with width := 15 } } = .refused .illFormedConfig := rfl
/-- Each word of R71 runs as the first command after reset, with result 0. -/
theorem test_step_first_after_reset :
    [0x95FF01, 0x102, 0x7703, 0x70F004, 0x10, 0x70002000511, 0x700EF00010000000120, 0x6666667E666666010F0010000830,
      0x10F00100008020031].map (fun w => answers (step (State.reset.withFetchWord 128 w)) fun t => t.err == 0#3) =
      List.replicate 9 true := by
  decide +kernel

/-! ## The pixel port -/

/-- A1, Small: `SETADDR 63`. -/
theorem test_setaddr_63 : answers (exec (.setaddr 63#16) s0) (fun t => t.addr == 63#16 && t.err == 0#3) = true := by
  decide
/-- A1, Small: `SETADDR 64` raises 1. -/
theorem test_setaddr_64 : raises (.setaddr 64#16) sLast 1#3 = true := by decide
/-- A5: `SETSTEP 0` at `ADDR = SBC` leaves `ADDR`. -/
theorem test_setstep_0 :
    answers (exec (.setstep 0#1) sPast) (fun t => t.stepReg == 0#1 && t.addr == 64#16) = true := by decide
/-- P2, command 13. -/
theorem test_wrbyte_last : answers (exec (.wrbyte 0xEE#8) sLast) (fun t => t == sPast) = true := by decide
/-- P2, command 14. -/
theorem test_wrbyte_past : raises (.wrbyte 0xDD#8) sPast 1#3 = true := by decide
/-- A3: `RMW 0x0F, 0x17` on `0xA0` gives `0xB7`, the bits of the value outside the mask ORed in. -/
theorem test_rmw_bleeds :
    answers (exec (.rmw 0x0F#8 0x17#8) { s0 with vram := [(0, 0xA0#8)] }) (fun t => t.vram == [(0, 0xB7#8)]) = true := by
  decide
/-- P2, command 6, and A4: code 5 with `STEP = 1`, code 1 first past the end. -/
theorem test_rmw_errors : raises (.rmw 0x0F#8 0x09#8) sStepping 5#3 && raises (.rmw 0x0F#8 0x09#8) sPast 1#3 = true := by
  decide

/-! ## The nibble addresser -/

/-- F1, reference instance. -/
theorem test_offsets :
    [(0, 0), (1, 0), (10, 2), (11, 2), (319, 0), (0, 239), (319, 239)].map (fun q => off Config.reference q.1 q.2) =
      [0, 0, 325, 325, 159, 38240, 38399] := by decide
/-- F4, Small: `CLEAR 1` leaves `ADDR = 64`, `STEP = 1`, 66 events. -/
theorem test_clear :
    answers (exec (.clear 1#8) s0)
      (fun t => t.vram == (List.range 64).map (fun a => (a, 0x11#8)) && t.addr == 64#16 && t.stepReg == 1#1 &&
        t.trace.length == 66) = true := by decide +kernel
/-- F4, Small: `CLEAR 0x13`. -/
theorem test_clear_color : raises (.clear 0x13#8) sStepping 4#3 = true := by decide
/-- F2: `SETPIXEL 1, 0, 5` on a byte `0xAA` gives `0xA5`, with its three events. -/
theorem test_setpixel_odd :
    answers (exec (.setpixel 1#16 0#16 5#8) { sStepping with vram := [(0, 0xAA#8)] })
      (fun t => t.vram == [(0, 0xA5#8)] && t.addr == 0#16 && t.stepReg == 0#1 &&
        t.events == sStepping.events ++ [.sa 0, .ss 0#1, .rmw 0 0x0F#8 0x05#8]) = true := by decide
/-- P4, commands 1 and 2: `SETPIXEL 16, 0, 1` and `SETPIXEL 0, 0, 16`. -/
theorem test_setpixel_errors :
    raises (.setpixel 16#16 0#16 1#8) s0 1#3 && raises (.setpixel 0#16 0#16 16#8) s0 4#3 = true := by decide

/-! ## The line stepper -/

/-- L1: a vertical line, its bytes, `ADDR` and events. -/
theorem test_drawline_vertical :
    answers (exec (.drawline 3#16 1#16 3#16 4#16 9#8) s0)
      (fun t => t.vram == [(9, 9#8), (17, 9#8), (25, 9#8), (33, 9#8)] && t.addr == 33#16 &&
        t.events == [.sa 9, .ss 0#1, .rmw 9 0x0F#8 9#8, .adv 8, .rmw 17 0x0F#8 9#8, .adv 8, .rmw 25 0x0F#8 9#8, .adv 8,
          .rmw 33 0x0F#8 9#8]) = true := by decide +kernel
/-- L3: a horizontal line from an odd column to an even one. -/
theorem test_drawline_horizontal :
    answers (exec (.drawline 3#16 2#16 8#16 2#16 12#8) s0)
      (fun t => t.vram == [(17, 0x0C#8), (18, 0xCC#8), (19, 0xCC#8), (20, 0xC0#8)] && t.addr == 20#16 &&
        t.trace.length == 11) = true := by decide +kernel

/-! ## Glyphs and strings -/

/-- G3: bit 7 is the left column, row 0 the top row. -/
theorem test_drawglyph_corners :
    answers (exec (.drawglyph ⟨0x80#8, 0#8, 0#8, 0#8, 0#8, 0#8, 0#8, 0x01#8⟩ 4#16 0#16 15#8 0#8) s0)
      (fun t => t.vram == [(2, 0xF0#8), (61, 0x0F#8)] && t.addr == 61#16 && t.trace.length == 192) = true := by
  decide +kernel
/-- G4: `x + 7 = W`; a colour above 15 that no bit selects. -/
theorem test_drawglyph_errors :
    raises (.drawglyph glyphH 9#16 0#16 15#8 1#8) s0 1#3 &&
      raises (.drawglyph ⟨0xFF#8, 0xFF#8, 0xFF#8, 0xFF#8, 0xFF#8, 0xFF#8, 0xFF#8, 0xFF#8⟩ 0#16 0#16 1#8 16#8) s0 4#3 =
        true := by decide
/-- T3: the string "H" is the glyph "H", in the whole state. -/
theorem test_drawstring_h :
    answers (exec (.drawstring 0x210#16 8#16 0#16 2#8 0#8) s0)
      (fun t => answers (exec (.drawglyph glyphH 8#16 0#16 2#8 0#8) s0) fun u => t == u) = true := by decide +kernel
/-- T4: the empty string off the surface, and the errors in scan order. -/
theorem test_drawstring_checks :
    [ raises (.drawstring 0x220#16 999#16 999#16 15#8 1#8) s0 0#3, raises (.drawstring 0x220#16 0#16 0#16 16#8 1#8) s0 4#3,
      raises (.drawstring 0x230#16 0#16 0#16 15#8 1#8) s0 1#3, raises (.drawstring 0x240#16 0#16 0#16 15#8 1#8) s0 3#3,
      raises (.drawstring 0x240#16 8#16 0#16 15#8 1#8) s0 1#3, raises (.drawstring 0x260#16 0#16 0#16 15#8 1#8) s0 3#3,
      raises (.drawstring 0x270#16 0#16 0#16 15#8 1#8) s0 1#3 ] = List.replicate 7 true := by decide +kernel

/-! ## Witnesses: for each statement with hypotheses, what meets them, at the boundaries of its clauses -/

theorem s0_inv : Inv s0 := ⟨by decide, by decide, by decide, by decide, by decide, by decide⟩
theorem sStepping_inv : Inv sStepping := ⟨by decide, by decide, by decide, by decide, by decide, by decide⟩
theorem sLast_inv : Inv sLast := ⟨by decide, by decide, by decide, by decide, by decide, by decide⟩
theorem sPast_inv : Inv sPast := ⟨by decide, by decide, by decide, by decide, by decide, by decide⟩

/-- `s0` with the word of a command, or an illegal word, at the command port. -/
def s0With (w : CommandWord) : State := { s0 with commands := [w] }

theorem s0With_inv (w : CommandWord) : Inv (s0With w) :=
  ⟨s0_inv.cfgWf, s0_inv.addrLe, s0_inv.errLe, s0_inv.vramWf, s0_inv.stepTraced, s0_inv.pastEnd⟩

/-! Encoding -/

theorem witness_EncodeOfDecodedWordIsTheWord : decode 0x95FF01#128 = .command (.setaddr 38399#16) := by decide

theorem witness_DecodeAgreesWithOpcodeTable :
    (∃ row ∈ opcodeTable, row.matches 0x95FF01#128 = true) ∧ ∀ row ∈ opcodeTable, row.matches 0x202#128 = false := by
  decide

theorem witness_BytesOfAWordDecodeAsTheWord :
    (List.replicate 15 0x01#8).length ≠ 16 ∧ (List.replicate 17 0x01#8).length ≠ 16 := by decide

theorem witness_AssemblerBuildsExactlyTheFittingCommands :
    SourceCommand.wf ⟨.setaddr, [65536]⟩ = false ∧ SourceCommand.wf ⟨.setaddr, [65535]⟩ = true := by decide

/-! Reset, the command port and the step -/

/-- The largest surface: `SBC = 65535`, its last byte listed. -/
theorem witness_ResetMeetsInvariant :
    Config.wf { small with width := 2, height := 65535 } = true ∧
      Memory.wfSized (Config.surfaceBytes { small with width := 2, height := 65535 }) [(65534, 1#8)] = true := by decide

theorem witness_InvariantKeptByEveryStep :
    (Inv sPast ∧ ∃ t, step sPast = .next t) ∧
      (Inv (s0With 0x95FF01#128) ∧ ∃ t, step (s0With 0x95FF01#128) = .next t ∧ (t.err == 1#3) = true) ∧
      (Inv (s0With 0x3F01#128) ∧ ∃ t, step (s0With 0x3F01#128) = .next t ∧ (t.err == 0#3) = true) :=
  ⟨⟨sPast_inv, _, rfl⟩, ⟨s0With_inv _, exists_of_answers (by decide)⟩, s0With_inv _, exists_of_answers (by decide)⟩

theorem witness_ReachableStatesMeetInvariant : Reachable (s0.issue 0x3F01#128) ∧ ∃ t, Reachable t ∧ (t.addr == 63#16) = true :=
  have h : Reachable (s0.issue 0x3F01#128) := .issue _ _ (.reset small [] (by decide) (by decide))
  have ⟨t, ht, ha⟩ : ∃ t, step (s0.issue 0x3F01#128) = .next t ∧ (t.addr == 63#16) = true :=
    exists_of_answers (by decide)
  ⟨h, t, .step _ _ h ht, ha⟩

theorem witness_StepRunsTheDecodedCommand :
    (s0With 0x95FF01#128).cfg.wf = true ∧ (s0With 0x95FF01#128).commands = 0x95FF01#128 :: [] ∧
      decode 0x95FF01#128 = .command (.setaddr 38399#16) := by decide

theorem witness_IllegalWordRaisesIllegalCommand :
    (s0With 0x202#128).cfg.wf = true ∧ (s0With 0x202#128).commands = 0x202#128 :: [] ∧
      ∀ row ∈ opcodeTable, row.matches 0x202#128 = false := by decide

/-- One word for each clause: opcodes `0x00`, `0x05` and `0xFF`; a step of 2 and of 255; byte 15 equal to 1 and to 255. -/
theorem witness_NamedIllegalWordsAreIllegal :
    ([0x00#128, 0x05#128, 0xFF#128].all fun w =>
      decide (wordByte w 0 ∉ [0x01#8, 0x02#8, 0x03#8, 0x04#8, 0x10#8, 0x11#8, 0x20#8, 0x30#8, 0x31#8])) = true ∧
      ([0x202#128, 0xFF02#128].all fun w => decide (wordByte w 0 = 0x02#8 ∧ 2 ≤ (wordByte w 1).toNat)) = true ∧
      ([0x01000000000000000000000000000030#128, 0xFF000000000000000000000000000030#128].all fun w =>
        decide (wordByte w 0 = 0x30#8 ∧ wordByte w 15 ≠ 0#8)) = true := by decide

theorem witness_IdleCoreKeepsItsState : s0.cfg.wf = true ∧ s0.commands = [] := by decide

/-- One configuration for each constraint: odd `W`, `W = 0`, `W = 65538`, `H = 0`, `H = 65537`, `SBC = 65536`. -/
theorem witness_ConfigurationOutsideR7IsRefused :
    ∀ q ∈ [(15, 8), (0, 8), (65538, 1), (16, 0), (2, 65537), (2, 65536)],
      let s : State := { s0 with cfg := { small with width := q.1, height := q.2 } }
      ¬ (s.cfg.width % 2 = 0 ∧ 2 ≤ s.cfg.width ∧ s.cfg.width ≤ 65536 ∧ 1 ≤ s.cfg.height ∧ s.cfg.height ≤ 65536 ∧
        s.cfg.width / 2 * s.cfg.height ≤ 65535) := by decide

theorem witness_EveryStepAnswersANextState : (s0With 0xFFFF#128).cfg.wf = true ∧ sPast.cfg.wf = true := by decide

theorem witness_ParametersNeverChange :
    (∃ t, exec (.setstep 1#1) sPast = .next t) ∧ ∃ t, step (s0With 0x3F01#128) = .next t ∧ (t.err == 0#3) = true :=
  ⟨⟨_, rfl⟩, exists_of_answers (by decide)⟩

/-! Errors -/

theorem witness_ErrorChangesNothingButErr : ∃ t, exec (.wrbyte 0xDD#8) sPast = .next t ∧ t.err ≠ 0#3 :=
  have ⟨t, h, e⟩ : ∃ t, exec (.wrbyte 0xDD#8) sPast = .next t ∧ (t.err != 0#3) = true := exists_of_answers (by decide)
  ⟨t, h, by simpa using e⟩

theorem witness_FailedCommandFailsAgain : ∃ t, exec (.rmw 0x0F#8 0x09#8) sStepping = .next t ∧ t.err ≠ 0#3 :=
  have ⟨t, h, e⟩ : ∃ t, exec (.rmw 0x0F#8 0x09#8) sStepping = .next t ∧ (t.err != 0#3) = true :=
    exists_of_answers (by decide)
  ⟨t, h, by simpa using e⟩

/-- Two states that differ in `VRAM`, `FONT` and `ERR`. -/
theorem witness_ResultIgnoresVramFontAndErr :
    let s' : State := { s0 with vram := [(9, 1#8)], err := 5#3, cfg := { small with font := [] } }
    s0.addr = s'.addr ∧ s0.stepReg = s'.stepReg ∧ s0.cfg.width = s'.cfg.width ∧ s0.cfg.height = s'.cfg.height ∧
      s0.cfg.text = s'.cfg.text ∧ (∃ t, exec (.drawstring 0x210#16 0#16 0#16 1#8 2#8) s0 = .next t ∧ (t.err == 0#3) = true) ∧
      ∃ t, exec (.drawstring 0x210#16 0#16 0#16 1#8 2#8) s' = .next t ∧ (t.err == 0#3) = true :=
  ⟨rfl, rfl, rfl, rfl, rfl, exists_of_answers (by decide +kernel), exists_of_answers (by decide +kernel)⟩

/-- Each arm with its cause (at the boundary) and without it. -/
theorem witness_AddressOutOfRangeCauses :
    ([(Instr.setaddr 64#16, s0, 1#3), (.setaddr 63#16, s0, 0#3), (.setstep 1#1, sPast, 0#3), (.wrbyte 1#8, sPast, 1#3),
      (.wrbyte 1#8, sLast, 0#3), (.rmw 1#8 1#8, sPast, 1#3), (.clear 0x10#8, sPast, 4#3), (.setpixel 16#16 7#16 1#8, s0, 1#3),
      (.setpixel 15#16 8#16 1#8, s0, 1#3), (.setpixel 15#16 7#16 1#8, s0, 0#3), (.drawline 15#16 7#16 16#16 7#16 1#8, s0, 1#3),
      (.drawline 15#16 7#16 15#16 8#16 1#8, s0, 1#3), (.drawline 15#16 7#16 15#16 7#16 1#8, s0, 0#3),
      (.drawglyph glyphH 9#16 0#16 1#8 1#8, s0, 1#3), (.drawglyph glyphH 8#16 1#16 1#8 1#8, s0, 1#3),
      (.drawglyph glyphH 8#16 0#16 1#8 1#8, s0, 0#3), (.drawstring 0x210#16 9#16 0#16 1#8 1#8, s0, 1#3),
      (.drawstring 0x210#16 8#16 0#16 1#8 1#8, s0, 0#3)] : List (Instr × State × BitVec 3)).all
      (fun q => answers (exec q.1 q.2.1) fun t => t.err == q.2.2) = true := by decide +kernel

/-- A diagonal, a reversed vertical and a reversed horizontal line raise 2; a point does not. -/
theorem witness_UnsupportedGeometryCauses :
    ([(Instr.drawline 0#16 0#16 15#16 7#16 1#8, 2#3), (.drawline 3#16 7#16 3#16 6#16 1#8, 2#3),
      (.drawline 3#16 7#16 2#16 7#16 1#8, 2#3), (.drawline 3#16 7#16 3#16 7#16 1#8, 0#3)] : List (Instr × BitVec 3)).all
      (fun q => answers (exec q.1 s0) fun t => t.err == q.2) = true := by decide +kernel

/-- Codes 31 and 104 raise 3. -/
theorem witness_InvalidCharacterCauses :
    ([(Instr.drawstring 0x260#16 0#16 0#16 1#8 1#8, 3#3), (.drawstring 0x240#16 0#16 0#16 1#8 1#8, 3#3),
      (.drawstring 0x200#16 0#16 0#16 1#8 1#8, 0#3)] : List (Instr × BitVec 3)).all
      (fun q => answers (exec q.1 s0) fun t => t.err == q.2) = true := by decide +kernel

/-- Colour 16 raises 4, colour 15 does not. -/
theorem witness_InvalidColorCauses :
    ([(Instr.clear 16#8, 4#3), (.setpixel 0#16 0#16 16#8, 4#3), (.setpixel 0#16 0#16 15#8, 0#3),
      (.drawline 0#16 0#16 0#16 0#16 16#8, 4#3), (.drawglyph glyphH 0#16 0#16 16#8 15#8, 4#3),
      (.drawglyph glyphH 0#16 0#16 15#8 16#8, 4#3), (.drawstring 0x220#16 0#16 0#16 16#8 0#8, 4#3)] :
      List (Instr × BitVec 3)).all (fun q => answers (exec q.1 s0) fun t => t.err == q.2) = true := by decide +kernel

theorem witness_StepNotZeroCauses :
    ([(Instr.rmw 1#8 1#8, sLast, 5#3), (.rmw 1#8 1#8, sPast, 1#3), (.rmw 1#8 1#8, s0, 0#3), (.wrbyte 1#8, sLast, 0#3)] :
      List (Instr × State × BitVec 3)).all (fun q => answers (exec q.1 q.2.1) fun t => t.err == q.2.2) = true := by decide

/-! The pixel port -/

theorem witness_SetaddrProgramsTheAddress :
    s0.cfg.surfaceBytes ≤ (64#16 : Half).toNat ∧ ¬ s0.cfg.surfaceBytes ≤ (63#16 : Half).toNat := by decide

theorem witness_WrbyteWritesThenSteps :
    (Inv sPast ∧ sPast.addr.toNat = sPast.cfg.surfaceBytes) ∧ Inv sLast ∧ sLast.addr.toNat ≠ sLast.cfg.surfaceBytes :=
  ⟨⟨sPast_inv, by decide⟩, sLast_inv, by decide⟩

/-- Writes that fill the last 53 bytes exactly, and one that does not reach the end. -/
theorem witness_SteppedWritesFillAscendingBytes :
    Inv sStepping ∧ sStepping.stepReg = 1#1 ∧
      sStepping.addr.toNat + (List.replicate 53 7#8).length = sStepping.cfg.surfaceBytes ∧
      sStepping.addr.toNat + [7#8].length ≤ sStepping.cfg.surfaceBytes :=
  ⟨sStepping_inv, by decide, by decide, by decide⟩

theorem witness_RmwMergesValueUnderMask :
    (Inv sPast ∧ sPast.addr.toNat = sPast.cfg.surfaceBytes) ∧
      (Inv sLast ∧ sLast.addr.toNat ≠ sLast.cfg.surfaceBytes ∧ sLast.stepReg = 1#1) ∧
      Inv s0 ∧ s0.addr.toNat ≠ s0.cfg.surfaceBytes ∧ s0.stepReg ≠ 1#1 :=
  ⟨⟨sPast_inv, by decide⟩, ⟨sLast_inv, by decide, by decide⟩, s0_inv, by decide, by decide⟩

theorem witness_RmwByteLaws : 0x70#8 &&& ~~~0xF0#8 = 0#8 ∧ (15#8 : Byte).toNat ≤ 15 := by decide

theorem witness_StepIsTheReplayOfItsEvents :
    Inv (s0With 0x70002000511#128) ∧ ∃ t, step (s0With 0x70002000511#128) = .next t ∧ (t.trace.length == 3) = true :=
  ⟨s0With_inv _, exists_of_answers (by decide +kernel)⟩

/-! The nibble addresser -/

theorem witness_OffsetOfAPixelIsAVramAddress :
    small.wf = true ∧ inRange small 15 7 ∧ ¬ inRange small 16 7 ∧ ¬ inRange small 15 8 := by decide

theorem witness_ByteHoldsExactlyTwoPixels : small.wf = true ∧ 63 < small.surfaceBytes ∧ ¬ 64 < small.surfaceBytes := by
  decide

theorem witness_NibbleMaskAndValue : (15#8 : Byte).toNat ≤ 15 ∧ 318 % 2 = 0 ∧ 319 % 2 = 1 := by decide

theorem witness_ClearFillsEveryByte : Inv sPast ∧ 15 < (16#8 : Byte).toNat ∧ ¬ 15 < (15#8 : Byte).toNat :=
  ⟨sPast_inv, by decide, by decide⟩

theorem witness_SetpixelSetsOneNibble :
    Inv sPast ∧ (sPast.cfg.width ≤ 16 ∧ sPast.cfg.height ≤ 8) ∧ (¬ (sPast.cfg.width ≤ 15 ∨ sPast.cfg.height ≤ 7)) ∧
      15 < (16#8 : Byte).toNat ∧ ¬ 15 < (15#8 : Byte).toNat :=
  ⟨sPast_inv, by decide, by decide, by decide, by decide⟩

theorem witness_SetpixelChangesOnePixel :
    Inv sPast ∧ (∃ t, exec (.setpixel 15#16 7#16 15#8) sPast = .next t ∧ (t.err == 0#3) = true) ∧
      inRange sPast.cfg 14 7 ∧ inRange sPast.cfg 0 0 :=
  ⟨sPast_inv, exists_of_answers (by decide), by decide, by decide⟩

theorem witness_ClearThenSetpixelsKeepTheFill :
    Inv sPast ∧ (15#8 : Byte).toNat ≤ 15 ∧
      ∀ q ∈ [((0#16 : Half), (0#16 : Half)), (15#16, 7#16)], inRange sPast.cfg q.1.toNat q.2.toNat := by
  refine ⟨sPast_inv, by decide, fun q hq => ?_⟩
  simp only [List.mem_cons, List.not_mem_nil, or_false] at hq
  rcases hq with rfl | rfl <;> decide

/-! The line stepper -/

/-- A point, and two pixels of a row. -/
theorem witness_LineClassification : (3 = 3 ∧ 7 ≤ 7) ∧ (7 = 7 ∧ 14 < 15) := by decide

/-- Operands of each branch: off the surface; reversed; colour 16; a line that is drawn. -/
theorem witness_DrawlineChecksInOrder :
    Inv sPast ∧ (sPast.cfg.width ≤ (16#16 : Half).toNat ∧ sPast.cfg.height ≤ (8#16 : Half).toNat) ∧
      ([(Instr.drawline 0#16 0#16 16#16 0#16 1#8, 1#3), (.drawline 1#16 0#16 0#16 0#16 16#8, 2#3),
        (.drawline 0#16 0#16 1#16 0#16 16#8, 4#3), (.drawline 0#16 0#16 1#16 0#16 15#8, 0#3)] :
        List (Instr × BitVec 3)).all (fun q => answers (exec q.1 sPast) fun t => t.err == q.2) = true :=
  ⟨sPast_inv, by decide, by decide +kernel⟩

/-- A whole column, and a point. -/
theorem witness_VerticalLineDrawsItsColumn :
    Inv sPast ∧ inRange sPast.cfg (15#16 : Half).toNat (7#16 : Half).toNat ∧ (0#16 : Half).toNat ≤ (7#16 : Half).toNat ∧
      (7#16 : Half).toNat ≤ (7#16 : Half).toNat ∧ (15#8 : Byte).toNat ≤ 15 :=
  ⟨sPast_inv, by decide, by decide, by decide, by decide⟩

/-- A whole row, and two pixels. -/
theorem witness_HorizontalLineDrawsItsRow :
    Inv sPast ∧ inRange sPast.cfg (15#16 : Half).toNat (7#16 : Half).toNat ∧ (0#16 : Half).toNat < (15#16 : Half).toNat ∧
      (14#16 : Half).toNat < (15#16 : Half).toNat ∧ (15#8 : Byte).toNat ≤ 15 :=
  ⟨sPast_inv, by decide, by decide, by decide, by decide⟩

/-- L1 and L3: a column and a row. -/
theorem witness_DrawlineEqualsItsSetpixels :
    Inv s0 ∧ (∃ t, exec (.drawline 3#16 1#16 3#16 4#16 9#8) s0 = .next t ∧ (t.err == 0#3) = true) ∧
      ∃ t, exec (.drawline 3#16 2#16 8#16 2#16 12#8) s0 = .next t ∧ (t.err == 0#3) = true :=
  ⟨s0_inv, exists_of_answers (by decide), exists_of_answers (by decide)⟩

/-- A column of colour 9 and a row of colour 12 that cross at `(3, 2)`. -/
theorem witness_CrossingLinesAgree :
    Inv s0 ∧ (∃ t, exec (.drawline 3#16 1#16 3#16 4#16 9#8) s0 = .next t ∧
        (t.err == 0#3 && answers (exec (.drawline 1#16 2#16 8#16 2#16 12#8) t) fun u => u.err == 0#3) = true) ∧
      (∃ t', exec (.drawline 1#16 2#16 8#16 2#16 12#8) s0 = .next t' ∧
        (answers (exec (.drawline 3#16 1#16 3#16 4#16 9#8) t') fun u => u.err == 0#3) = true) ∧
      ((3#16 : Half).toNat ≤ 3 ∧ 3 ≤ (3#16 : Half).toNat ∧ (1#16 : Half).toNat ≤ 2 ∧ 2 ≤ (4#16 : Half).toNat) ∧
      ((1#16 : Half).toNat ≤ 3 ∧ 3 ≤ (8#16 : Half).toNat ∧ (2#16 : Half).toNat ≤ 2 ∧ 2 ≤ (2#16 : Half).toNat) :=
  ⟨s0_inv, exists_of_answers (by decide +kernel), exists_of_answers (by decide +kernel), by decide, by decide⟩

/-! Composite commands together -/

theorem witness_CompositeCommandsAreIdempotent :
    isComposite (.setpixel 15#16 7#16 15#8) = true ∧ Inv sPast ∧
      ∃ t, exec (.setpixel 15#16 7#16 15#8) sPast = .next t ∧ (t.err == 0#3) = true :=
  ⟨rfl, sPast_inv, exists_of_answers (by decide)⟩

/-- A command that touches the port, and the empty string, which does not. -/
theorem witness_CompositeCommandsIgnorePortRegisters :
    (isComposite (.setpixel 15#16 7#16 15#8) = true ∧
      ∃ t, exec (.setpixel 15#16 7#16 15#8) sPast = .next t ∧ (t.trace != sPast.trace) = true) ∧
      isComposite (.drawstring 0x220#16 0#16 0#16 1#8 1#8) = true ∧
      ∃ t, exec (.drawstring 0x220#16 0#16 0#16 1#8 1#8) sPast = .next t ∧ (t.trace == sPast.trace) = true :=
  ⟨⟨rfl, exists_of_answers (by decide)⟩, rfl, exists_of_answers (by decide +kernel)⟩

theorem witness_MicroOperationCounts :
    Inv s0 ∧
      ([(Instr.setaddr 64#16, 1#3), (.setaddr 63#16, 0#3), (.setstep 1#1, 0#3), (.wrbyte 1#8, 0#3), (.rmw 1#8 1#8, 0#3),
        (.clear 0#8, 0#3), (.setpixel 15#16 7#16 15#8, 0#3), (.drawline 3#16 7#16 3#16 7#16 1#8, 0#3),
        (.drawline 0#16 7#16 15#16 7#16 1#8, 0#3), (.drawglyph glyphH 8#16 0#16 1#8 1#8, 0#3),
        (.drawstring 0x200#16 0#16 0#16 1#8 1#8, 0#3)] : List (Instr × BitVec 3)).all
        (fun q => answers (exec q.1 s0) fun t => t.err == q.2) = true :=
  ⟨s0_inv, by decide +kernel⟩

/-! Glyphs and strings -/

/-- The last legal origin, the two first illegal ones, and the colour boundary. -/
theorem witness_DrawglyphPaintsItsBox :
    Inv s0 ∧ (s0.cfg.width ≤ (9#16 : Half).toNat + 7 ∧ s0.cfg.height ≤ (1#16 : Half).toNat + 7) ∧
      (¬ (s0.cfg.width ≤ (8#16 : Half).toNat + 7 ∨ s0.cfg.height ≤ (0#16 : Half).toNat + 7)) ∧
      15 < (16#8 : Byte).toNat ∧ ¬ 15 < (15#8 : Byte).toNat :=
  ⟨s0_inv, by decide, by decide, by decide, by decide⟩

theorem witness_DrawglyphEqualsItsSetpixels :
    Inv s0 ∧ ∃ t, exec (.drawglyph glyphH 4#16 0#16 15#8 1#8) s0 = .next t ∧ (t.err == 0#3) = true :=
  ⟨s0_inv, exists_of_answers (by decide)⟩

theorem witness_StringScanAlwaysEnds : small.width / 8 + 1 ≤ 3 := by decide

/-- "HI" fills the row of boxes, and the empty string. -/
theorem witness_DrawstringPaintsItsBoxes :
    Inv s0 ∧ stringOf s0.cfg (0x200#16 : Half).toNat (0#16 : Half).toNat (0#16 : Half).toNat 2 ∧
      stringOf s0.cfg (0x220#16 : Half).toNat (999#16 : Half).toNat (999#16 : Half).toNat 0 ∧ (15#8 : Byte).toNat ≤ 15 :=
  ⟨s0_inv, by decide +kernel, by decide +kernel, by decide⟩

/-- "HIH" fails by range at character 2, "Hh" by coverage at character 1; "HI" with colour 16. -/
theorem witness_DrawstringReportsTheFirstFailure :
    Inv s0 ∧ stringFailsAt s0.cfg (0x230#16 : Half).toNat (0#16 : Half).toNat (0#16 : Half).toNat 2 ∧
      stringFailsAt s0.cfg (0x240#16 : Half).toNat (0#16 : Half).toNat (0#16 : Half).toNat 1 ∧
      stringOf s0.cfg (0x200#16 : Half).toNat (0#16 : Half).toNat (0#16 : Half).toNat 2 ∧ 15 < (16#8 : Byte).toNat :=
  ⟨s0_inv, by decide +kernel, by decide +kernel, by decide +kernel, by decide⟩

theorem witness_DrawstringEqualsItsDrawglyphs :
    Inv s0 ∧ 1 ≤ 2 ∧ stringOf s0.cfg (0x200#16 : Half).toNat (0#16 : Half).toNat (0#16 : Half).toNat 2 ∧
      ∃ t, exec (.drawstring 0x200#16 0#16 0#16 15#8 1#8) s0 = .next t ∧ (t.err == 0#3) = true :=
  ⟨s0_inv, by decide, by decide +kernel, exists_of_answers (by decide +kernel)⟩

end Sys2Proof.Tests
end

section
/-! SUPPORT. The three parts of a command (spec/00_scope.md rule R17) as functions of the command, so that a statement
about every command is a statement about its check part and its effect part; and all that a step can do. -/

namespace Sys2Proof.Machine

/-! ### The three parts of a command -/

/-- The check part of a command: the error it raises, none if every check passes. -/
def checkPart : Instr → State → Option ErrorKind
  | .setaddr a, s => firstError [(decide (s.cfg.surfaceBytes ≤ a.toNat), .addressOutOfRange)]
  | .setstep _, _ => firstError []
  | .wrbyte _, s => firstError [(decide (s.cfg.surfaceBytes ≤ s.addr.toNat), .addressOutOfRange)]
  | .rmw _ _, s =>
    firstError [(decide (s.cfg.surfaceBytes ≤ s.addr.toNat), .addressOutOfRange),
      (decide (s.stepReg ≠ 0#1), .stepNotZero)]
  | .clear color, _ => firstError [(decide (¬ legalColor color), .invalidColor)]
  | .setpixel x y color, s =>
    firstError [(decide (¬ inRange s.cfg x.toNat y.toNat), .addressOutOfRange),
      (decide (¬ legalColor color), .invalidColor)]
  | .drawline x0 y0 x1 y1 color, s =>
    firstError
      [(decide (¬ (inRange s.cfg x0.toNat y0.toNat ∧ inRange s.cfg x1.toNat y1.toNat)), .addressOutOfRange),
       (decide (¬ supportedLine x0.toNat y0.toNat x1.toNat y1.toNat), .unsupportedGeometry),
       (decide (¬ legalColor color), .invalidColor)]
  | .drawglyph _ x y fg bg, s =>
    firstError [(decide (¬ boxInRange s.cfg x.toNat y.toNat), .addressOutOfRange),
      (decide (¬ (legalColor fg ∧ legalColor bg)), .invalidColor)]
  | .drawstring p x y fg bg, s => stringCheck (scanString s.cfg p.toNat x.toNat y.toNat) fg bg

/-- The highest `VRAM` address the effect part of a command programs or accesses. -/
def reachPart : Instr → State → Option Nat
  | .setaddr a, _ => some a.toNat
  | .setstep _, _ => none
  | .wrbyte _, s => some s.addr.toNat
  | .rmw _ _, s => some s.addr.toNat
  | .clear _, s => some (s.cfg.surfaceBytes - 1)
  | .setpixel x y _, s => some (off s.cfg x.toNat y.toNat)
  | .drawline _ _ x1 y1 _, s => some (off s.cfg x1.toNat y1.toNat)
  | .drawglyph _ x y _ _, s => some (boxLast s.cfg x.toNat y.toNat)
  | .drawstring p x y _ _, s =>
    stringReach s.cfg x.toNat y.toNat (scanString s.cfg p.toNat x.toNat y.toNat).count

/-- The effect part of a command: its micro-operations, without the final `ERR <- 0`. -/
def effectPart : Instr → State → State
  | .setaddr a, s => portSetaddr a.toNat s
  | .setstep n, s => portSetstep n s
  | .wrbyte v, s => portWrite v s
  | .rmw m v, s => portRmw m v s
  | .clear color, s => clearEffect color s
  | .setpixel x y color, s => pixelEffect x.toNat y.toNat color s
  | .drawline x0 y0 x1 y1 color, s => lineEffect x0.toNat y0.toNat x1.toNat y1.toNat color s
  | .drawglyph g x y fg bg, s => glyphBody g x.toNat y.toNat fg bg s
  | .drawstring p x y fg bg, s =>
    forUp (stringChar p.toNat x.toNat y.toNat fg bg) 0 (scanString s.cfg p.toNat x.toNat y.toNat).count s

/-- A command depends on its effect part only by what that does to the state it finds. -/
theorem command_eq_of_effect_eq {check : Option ErrorKind} {reach : Option Nat} {effect : State → State}
    {s t : State} (h : effect s = t) : command check reach effect s = command check reach (fun _ => t) s := by
  simp only [command, h]

/-- Every command is its three parts in the frame of R17. -/
theorem exec_eq_command (i : Instr) (s : State) :
    exec i s = command (checkPart i s) (reachPart i s) (fun _ => effectPart i s) s := by
  cases i with
  | setaddr | setstep | wrbyte | rmw | clear | setpixel => rfl
  | drawline => exact command_eq_of_effect_eq (by simp only [effectPart])
  | drawglyph => exact command_eq_of_effect_eq (by simp only [effectPart])
  | drawstring => exact command_eq_of_effect_eq (by simp only [effectPart])

/-- All that a command can do when it answers a next state. -/
theorem exec_cases {i : Instr} {s t : State} (h : exec i s = .next t) :
    (∃ k, checkPart i s = some k ∧ t = raise k s) ∨
      (checkPart i s = none ∧ (∀ a, reachPart i s = some a → a < s.cfg.surfaceBytes) ∧
        t = complete (effectPart i s)) :=
  command_cases (exec_eq_command i s ▸ h)

/-- A command whose checks pass and whose reach lies inside `VRAM` has its whole effect. -/
theorem exec_completes {i : Instr} {s : State} (hok : checkPart i s = none)
    (hreach : ∀ a, reachPart i s = some a → a < s.cfg.surfaceBytes) :
    exec i s = .next (complete (effectPart i s)) := by
  rw [exec_eq_command, hok, command_completes _ _ _ hreach]

/-- A command that leaves `ERR = 0` passed its checks and had its whole effect. -/
theorem exec_success {i : Instr} {s t : State} (h : exec i s = .next t) (herr : t.err = 0#3) :
    checkPart i s = none ∧ (∀ a, reachPart i s = some a → a < s.cfg.surfaceBytes) ∧
      t = complete (effectPart i s) := by
  rcases exec_cases h with ⟨k, -, rfl⟩ | hsuccess
  · exact absurd herr (code_ne_zero k)
  · exact hsuccess

/-- The checks of a composite command look at the parameters alone (R24). -/
theorem checkPart_congr {i : Instr} (hi : isComposite i = true) {s t : State} (h : t.cfg = s.cfg) :
    checkPart i t = checkPart i s := by
  cases i with
  | setaddr | setstep | wrbyte | rmw => cases hi
  | clear | setpixel | drawline | drawglyph | drawstring => simp only [checkPart, h]

/-- The reach of a composite command depends on the parameters alone (R24). -/
theorem reachPart_congr {i : Instr} (hi : isComposite i = true) {s t : State} (h : t.cfg = s.cfg) :
    reachPart i t = reachPart i s := by
  cases i with
  | setaddr | setstep | wrbyte | rmw => cases hi
  | clear | setpixel | drawline | drawglyph | drawstring => simp only [reachPart, h]

/-! ### What an effect part leaves unchanged -/

/-- From `s` to `t` nothing but the port registers, `VRAM` and `TRACE` changed. -/
structure PortOnly (s t : State) : Prop where
  cfg : t.cfg = s.cfg
  commands : t.commands = s.commands
  err : t.err = s.err

theorem PortOnly.refl (s : State) : PortOnly s s := ⟨rfl, rfl, rfl⟩

theorem PortOnly.trans {s t u : State} (h : PortOnly s t) (h' : PortOnly t u) : PortOnly s u :=
  ⟨h'.cfg.trans h.cfg, h'.commands.trans h.commands, h'.err.trans h.err⟩

theorem portOnly_portSetaddr (a : Nat) (s : State) : PortOnly s (portSetaddr a s) := ⟨rfl, rfl, rfl⟩
theorem portOnly_portSetstep (n : BitVec 1) (s : State) : PortOnly s (portSetstep n s) := ⟨rfl, rfl, rfl⟩
theorem portOnly_portWrite (v : Byte) (s : State) : PortOnly s (portWrite v s) := ⟨rfl, rfl, rfl⟩
theorem portOnly_portRmw (m v : Byte) (s : State) : PortOnly s (portRmw m v s) := ⟨rfl, rfl, rfl⟩
theorem portOnly_portAdv (d : Nat) (s : State) : PortOnly s (portAdv d s) := ⟨rfl, rfl, rfl⟩

/-- A loop changes no more than its bodies do. -/
theorem portOnly_forUp {body : Nat → State → State} (h : ∀ i s, PortOnly s (body i s)) (a n : Nat) (s : State) :
    PortOnly s (forUp body a n s) :=
  forUp_invariant (fun _ t => PortOnly s t) body a n s (.refl s) fun i t _ _ ht => ht.trans (h i t)

/-- Programming the port, the prologue of every composite effect part. -/
theorem portOnly_program (a : Nat) (n : BitVec 1) (s : State) : PortOnly s (portSetstep n (portSetaddr a s)) :=
  (portOnly_portSetaddr a s).trans (portOnly_portSetstep n _)

theorem portOnly_pixelEffect (x y : Nat) (color : Byte) (s : State) : PortOnly s (pixelEffect x y color s) :=
  (portOnly_program _ _ s).trans (portOnly_portRmw _ _ _)

theorem portOnly_glyphBody (g : Glyph) (x y : Nat) (fg bg : Byte) (s : State) :
    PortOnly s (glyphBody g x y fg bg s) :=
  portOnly_forUp (fun _ s => portOnly_forUp (fun _ s => portOnly_pixelEffect _ _ _ s) 0 8 s) 0 8 s

theorem portOnly_clearEffect (color : Byte) (s : State) : PortOnly s (clearEffect color s) :=
  (portOnly_program 0 1#1 s).trans (portOnly_forUp (fun _ => portOnly_portWrite _) _ _ _)

theorem portOnly_verticalRow (m v : Byte) (y1 y : Nat) (s : State) : PortOnly s (verticalRow m v y1 y s) := by
  unfold verticalRow
  split
  · exact (portOnly_portRmw m v s).trans (portOnly_portAdv _ _)
  · exact portOnly_portRmw m v s

theorem portOnly_horizontalPixel (color : Byte) (x1 x : Nat) (s : State) :
    PortOnly s (horizontalPixel color x1 x s) := by
  unfold horizontalPixel
  split
  · exact (portOnly_portRmw _ _ s).trans (portOnly_portAdv _ _)
  · exact portOnly_portRmw _ _ s

theorem portOnly_lineEffect (x0 y0 x1 y1 : Nat) (color : Byte) (s : State) :
    PortOnly s (lineEffect x0 y0 x1 y1 color s) := by
  unfold lineEffect
  split
  · exact (portOnly_program _ _ s).trans (portOnly_forUp (portOnly_verticalRow _ _ _) _ _ _)
  · exact (portOnly_program _ _ s).trans (portOnly_forUp (portOnly_horizontalPixel _ _) _ _ _)

/-- The effect part of every command leaves `ERR`, the parameters and the command port alone. -/
theorem portOnly_effectPart (i : Instr) (s : State) : PortOnly s (effectPart i s) := by
  cases i with
  | setaddr a => exact portOnly_portSetaddr _ s
  | setstep n => exact portOnly_portSetstep n s
  | wrbyte v => exact portOnly_portWrite v s
  | rmw m v => exact portOnly_portRmw m v s
  | clear color => exact portOnly_clearEffect color s
  | setpixel x y color => exact portOnly_pixelEffect _ _ color s
  | drawline x0 y0 x1 y1 color => exact portOnly_lineEffect _ _ _ _ color s
  | drawglyph g x y fg bg => exact portOnly_glyphBody g _ _ fg bg s
  | drawstring p x y fg bg => exact portOnly_forUp (fun _ s => portOnly_glyphBody _ _ _ fg bg s) _ _ s

/-- A command keeps the parameters and the words at the command port. -/
theorem exec_keeps_parameters {i : Instr} {s t : State} (h : exec i s = .next t) :
    t.cfg = s.cfg ∧ t.commands = s.commands := by
  rcases exec_cases h with ⟨k, -, rfl⟩ | ⟨-, -, rfl⟩
  · exact ⟨rfl, rfl⟩
  · exact ⟨(portOnly_effectPart i s).cfg, (portOnly_effectPart i s).commands⟩

/-! ### All that a step can do -/

/-- A configuration that is none of this hardware is refused (R7). -/
theorem step_of_not_wf {s : State} (h : s.cfg.wf = false) : step s = .refused .illFormedConfig := by
  simp [step, h]

/-- The idle core (R133, R141). -/
theorem step_idle {s : State} (hc : s.cfg.wf = true) (h : s.commands = []) : step s = .next s := by
  simp [step, hc, fetch_nil s h]

/-- A word that decodes to a command (R61, R70). -/
theorem step_command {s : State} {w : CommandWord} {rest : List CommandWord} {i : Instr} (hc : s.cfg.wf = true)
    (h : s.commands = w :: rest) (hd : decode w = .command i) : step s = exec i { s with commands := rest } := by
  simp [step, hc, fetch_cons s w rest h, hd]

/-- A word that decodes to no command (R66, R126). -/
theorem step_illegal {s : State} {w : CommandWord} {rest : List CommandWord} {why : Reject} (hc : s.cfg.wf = true)
    (h : s.commands = w :: rest) (hd : decode w = .illegal why) :
    step s = .next { s with err := 6#3, commands := rest } := by
  simp [step, hc, fetch_cons s w rest h, hd, illegalCommand_eq]

/-- All that a step can do when it answers a next state: stay idle, run the command of the first word at the port, or
raise IllegalCommand for it. -/
theorem step_cases {s t : State} (h : step s = .next t) :
    s.cfg.wf = true ∧
      ((s.commands = [] ∧ t = s) ∨
        ∃ w rest, s.commands = w :: rest ∧
          ((∃ i, decode w = .command i ∧ exec i { s with commands := rest } = .next t) ∨
            (∃ why, decode w = .illegal why) ∧ t = { s with err := 6#3, commands := rest })) := by
  cases hc : s.cfg.wf with
  | false => rw [step_of_not_wf hc] at h; cases h
  | true =>
    refine ⟨rfl, ?_⟩
    cases hw : s.commands with
    | nil =>
      rw [step_idle hc hw] at h
      cases h
      exact .inl ⟨rfl, rfl⟩
    | cons w rest =>
      refine .inr ⟨w, rest, rfl, ?_⟩
      cases hd : decode w with
      | command i => exact .inl ⟨i, rfl, step_command hc hw hd ▸ h⟩
      | illegal why =>
        rw [step_illegal hc hw hd] at h
        cases h
        exact .inr ⟨⟨why, rfl⟩, rfl⟩

end Sys2Proof.Machine
end

section
/-! SUPPORT. What the effect parts of the composite commands (R18) do: CLEAR fills `VRAM`; every other one paints a list
of dots that the parameters alone decide. -/

namespace Sys2Proof.Machine

/-! ### Micro-operations as drawings -/

/-- Programming the port with a step of 0 paints nothing. -/
theorem draws_program (s : State) {a : Nat} (ha : a < 65536) :
    Draws s (portSetstep 0#1 (portSetaddr a s)) [] [.sa a, .ss 0#1] a := by
  constructor <;> simp [State.events, paintAll, Nat.mod_eq_of_lt ha]

/-- The read-modify-write of a pixel paints its dot, where `ADDR` is the pixel's byte. -/
theorem draws_portRmw {s : State} (hstep : s.stepReg = 0#1) {x y : Nat} (haddr : s.addr.toNat = off s.cfg x y)
    (k : Byte) :
    Draws s (portRmw (pmask x) (pval x k) s) [(x, y, k)] [.rmw (off s.cfg x y) (pmask x) (pval x k)]
      (off s.cfg x y) := by
  constructor <;> simp [State.events, paintAll, paint, hstep, haddr]

/-- Advancing the address paints nothing. -/
theorem draws_portAdv {s : State} (hstep : s.stepReg = 0#1) {d : Nat} (hd : s.addr.toNat + d < 65536) :
    Draws s (portAdv d s) [] [.adv d] (s.addr.toNat + d) := by
  constructor <;> simp [State.events, paintAll, hstep, Nat.mod_eq_of_lt hd]

/-- A pixel painted, then the address advanced. -/
theorem draws_portRmw_portAdv {s : State} (hstep : s.stepReg = 0#1) {x y : Nat}
    (haddr : s.addr.toNat = off s.cfg x y) (k : Byte) {d : Nat} (hd : off s.cfg x y + d < 65536) :
    Draws s (portAdv d (portRmw (pmask x) (pval x k) s)) [(x, y, k)]
      [.rmw (off s.cfg x y) (pmask x) (pval x k), .adv d] (off s.cfg x y + d) := by
  have hrmw := draws_portRmw hstep haddr k
  have hadv := draws_portAdv (d := d) hrmw.step (by rw [hrmw.addr]; exact hd)
  rw [hrmw.addr] at hadv
  exact hrmw.trans hadv

/-- A loop of at least one drawing in which each body finds `ADDR` where the one before it left it. -/
theorem draws_forUp_linked (body : Nat → State → State) (dots : Nat → List Dot) (evs : Nat → List PortEvent)
    (before after : Nat → Nat) (c : Config) (a n : Nat) (s : State) (hs : s.cfg = c) (hstep : s.stepReg = 0#1)
    (haddr : s.addr.toNat = before a) (hlink : ∀ i, a ≤ i → i < a + n → after i = before (i + 1))
    (h : ∀ i s, a ≤ i → i ≤ a + n → s.cfg = c → s.stepReg = 0#1 → s.addr.toNat = before i →
      Draws s (body i s) (dots i) (evs i) (after i)) :
    Draws s (forUp body a (n + 1) s) ((List.range' a (n + 1)).flatMap dots) ((List.range' a (n + 1)).flatMap evs)
      (after (a + n)) := by
  induction n with
  | zero => simpa using h a s (by omega) (by omega) hs hstep haddr
  | succ n ih =>
    rw [forUp_snoc, List.range'_concat, List.flatMap_append, List.flatMap_append]
    have hinit := ih (fun i h1 h2 => hlink i h1 (by omega)) fun i s h1 h2 => h i s h1 (by omega)
    have hlast := h (a + (n + 1)) _ (by omega) (by omega) (hinit.cfg.trans hs) hinit.step
      (hinit.addr.trans (hlink (a + n) (by omega) (by omega)))
    simpa using hinit.trans hlast

/-! ### Lines -/

/-- The dots of the vertical path (R102), top to bottom. -/
def verticalDots (x0 y0 y1 : Nat) (color : Byte) : List Dot :=
  (List.range' y0 (y1 - y0 + 1)).flatMap fun y => [(x0, y, color)]

/-- The events of the vertical path after the port is programmed (R102). -/
def verticalEvents (c : Config) (x0 y0 y1 : Nat) (color : Byte) : List PortEvent :=
  (List.range' y0 (y1 - y0 + 1)).flatMap fun y =>
    .rmw (off c x0 y) (pmask x0) (pval x0 color) :: (if y < y1 then [.adv c.rowBytes] else [])

/-- The dots of the horizontal path (R103), left to right. -/
def horizontalDots (x0 x1 y0 : Nat) (color : Byte) : List Dot :=
  (List.range' x0 (x1 - x0 + 1)).flatMap fun x => [(x, y0, color)]

/-- The events of the horizontal path after the port is programmed (R103). -/
def horizontalEvents (c : Config) (x0 x1 y0 : Nat) (color : Byte) : List PortEvent :=
  (List.range' x0 (x1 - x0 + 1)).flatMap fun x =>
    .rmw (off c x y0) (pmask x) (pval x color) :: (if x < x1 ∧ x % 2 = 1 then [.adv 1] else [])

theorem nib_eq_lo_iff (x : Nat) : nib x = .lo ↔ x % 2 = 1 := by
  rcases column_cases x with ⟨hx, hn, -, -⟩ | ⟨hx, hn, -, -⟩ <;> simp [hx, hn]

/-- One row further is `RB` bytes further (R92). -/
theorem off_succ_row (c : Config) (x y : Nat) : off c x (y + 1) = off c x y + c.rowBytes := by
  simp only [off]; ring

/-- One column further is one byte further after an odd column, and the same byte after an even one (R92). -/
theorem off_succ_column (c : Config) (x y : Nat) : off c (x + 1) y = off c x y + x % 2 := by
  simp only [off]; omega

/-- An offset in range fits `ADDR`. -/
theorem off_lt_two_pow {c : Config} (hc : c.wf = true) {x y : Nat} (hr : inRange c x y) : off c x y < 65536 := by
  have := off_lt hc hr
  have := cfg_bounds hc
  omega

/-- All that one row of the vertical path does. -/
theorem draws_verticalRow {s : State} (hc : s.cfg.wf = true) {x0 y y1 : Nat} (hr : inRange s.cfg x0 y1)
    (hstep : s.stepReg = 0#1) (haddr : s.addr.toNat = off s.cfg x0 y) (k : Byte) :
    Draws s (verticalRow (pmask x0) (pval x0 k) y1 y s) [(x0, y, k)]
      (.rmw (off s.cfg x0 y) (pmask x0) (pval x0 k) :: (if y < y1 then [.adv s.cfg.rowBytes] else []))
      (if y < y1 then off s.cfg x0 (y + 1) else off s.cfg x0 y) := by
  unfold verticalRow
  split
  · next hlt =>
    have hnext : off s.cfg x0 (y + 1) < 65536 := off_lt_two_pow hc ⟨hr.1, by have := hr.2; omega⟩
    rw [off_succ_row] at hnext ⊢
    exact draws_portRmw_portAdv hstep haddr k hnext
  · exact draws_portRmw hstep haddr k

/-- All that the vertical path does (R102). -/
theorem draws_verticalPath {s : State} (hc : s.cfg.wf = true) {x0 y0 y1 : Nat} (hr : inRange s.cfg x0 y1)
    (hy : y0 ≤ y1) (k : Byte) :
    Draws s (verticalPath x0 y0 y1 k s) (verticalDots x0 y0 y1 k)
      (.sa (off s.cfg x0 y0) :: .ss 0#1 :: verticalEvents s.cfg x0 y0 y1 k) (off s.cfg x0 y1) := by
  have hprogram := draws_program s (off_lt_two_pow hc (x := x0) (y := y0) ⟨hr.1, by have := hr.2; omega⟩)
  have hloop := draws_forUp_linked (verticalRow (pmask x0) (pval x0 k) y1) (fun y => [(x0, y, k)])
    (fun y => .rmw (off s.cfg x0 y) (pmask x0) (pval x0 k) :: (if y < y1 then [.adv s.cfg.rowBytes] else []))
    (fun y => off s.cfg x0 y) (fun y => if y < y1 then off s.cfg x0 (y + 1) else off s.cfg x0 y) s.cfg y0 (y1 - y0) _
    hprogram.cfg hprogram.step hprogram.addr (fun y _ hlt => if_pos (by omega))
    (fun y t _ hle ht hstep haddr => by
      rw [← ht] at haddr hc hr ⊢
      exact draws_verticalRow hc hr hstep haddr k)
  have hcount : y1 + 1 - y0 = y1 - y0 + 1 := by omega
  have hend : y0 + (y1 - y0) = y1 := by omega
  simp only [hend, Nat.lt_irrefl, if_false] at hloop
  simpa [verticalPath, hcount, verticalDots, verticalEvents] using hprogram.trans hloop

/-- All that one pixel of the horizontal path does. -/
theorem draws_horizontalPixel {s : State} (hc : s.cfg.wf = true) {x x1 y0 : Nat} (hr : inRange s.cfg x1 y0)
    (hstep : s.stepReg = 0#1) (haddr : s.addr.toNat = off s.cfg x y0) (k : Byte) :
    Draws s (horizontalPixel k x1 x s) [(x, y0, k)]
      (.rmw (off s.cfg x y0) (pmask x) (pval x k) :: (if x < x1 ∧ x % 2 = 1 then [.adv 1] else []))
      (if x < x1 then off s.cfg (x + 1) y0 else off s.cfg x y0) := by
  simp only [horizontalPixel, nib_eq_lo_iff]
  by_cases hlt : x < x1
  · have hnext : off s.cfg (x + 1) y0 < 65536 := off_lt_two_pow hc ⟨by have := hr.1; omega, hr.2⟩
    rw [off_succ_column] at hnext ⊢
    rcases Nat.mod_two_eq_zero_or_one x with hpar | hpar
    · simpa [hlt, hpar] using draws_portRmw hstep haddr k
    · rw [hpar] at hnext
      simpa [hlt, hpar] using draws_portRmw_portAdv hstep haddr k hnext
  · simpa [hlt] using draws_portRmw hstep haddr k

/-- All that the horizontal path does (R103). -/
theorem draws_horizontalPath {s : State} (hc : s.cfg.wf = true) {x0 x1 y0 : Nat} (hr : inRange s.cfg x1 y0)
    (hx : x0 ≤ x1) (k : Byte) :
    Draws s (horizontalPath x0 x1 y0 k s) (horizontalDots x0 x1 y0 k)
      (.sa (off s.cfg x0 y0) :: .ss 0#1 :: horizontalEvents s.cfg x0 x1 y0 k) (off s.cfg x1 y0) := by
  have hprogram := draws_program s (off_lt_two_pow hc (x := x0) (y := y0) ⟨by have := hr.1; omega, hr.2⟩)
  have hloop := draws_forUp_linked (horizontalPixel k x1) (fun x => [(x, y0, k)])
    (fun x => .rmw (off s.cfg x y0) (pmask x) (pval x k) :: (if x < x1 ∧ x % 2 = 1 then [.adv 1] else []))
    (fun x => off s.cfg x y0) (fun x => if x < x1 then off s.cfg (x + 1) y0 else off s.cfg x y0) s.cfg x0 (x1 - x0) _
    hprogram.cfg hprogram.step hprogram.addr (fun x _ hlt => if_pos (by omega))
    (fun x t _ hle ht hstep haddr => by
      rw [← ht] at haddr hc hr ⊢
      exact draws_horizontalPixel hc hr hstep haddr k)
  have hcount : x1 + 1 - x0 = x1 - x0 + 1 := by omega
  have hend : x0 + (x1 - x0) = x1 := by omega
  simp only [hend, Nat.lt_irrefl, if_false] at hloop
  simpa [horizontalPath, hcount, horizontalDots, horizontalEvents] using hprogram.trans hloop

/-! ### Strings -/

/-- What a clean scan has found (R113): every character before the sentinel passes. -/
theorem scanFrom_clean {c : Config} {p x y fuel m n : Nat} (h : scanFrom c p x y fuel m = .clean n) :
    m ≤ n ∧ (∀ k, m ≤ k → k < n → charPasses c p x y k) ∧ textRead c (p + n) = 0#8 := by
  induction fuel generalizing m with
  | zero => cases h
  | succ fuel ih =>
    rw [scanFrom_succ] at h
    split at h
    · next hzero =>
      cases h
      exact ⟨Nat.le_refl _, fun k _ _ => by omega, hzero⟩
    · next hchar =>
      split at h
      · cases h
      · next hbox =>
        split at h
        · cases h
        · next hcov =>
          obtain ⟨hle, hall, hend⟩ := ih h
          refine ⟨by omega, fun k hmk hkn => ?_, hend⟩
          rcases Nat.eq_or_lt_of_le hmk with rfl | hlt
          · exact ⟨hchar, not_not.1 hbox, not_not.1 hcov⟩
          · exact hall k hlt hkn

/-- A clean scan has found a string in the sense of R113. -/
theorem stringOf_of_scanString_clean {c : Config} {p x y n : Nat} (h : scanString c p x y = .clean n) :
    stringOf c p x y n :=
  have ⟨_, hall, hend⟩ := scanFrom_clean h
  ⟨fun k hk => hall k (Nat.zero_le k) hk, hend⟩

/-- The dots of a string of `n` characters (R113). -/
def stringDots (c : Config) (p x y n : Nat) (fg bg : Byte) : List Dot :=
  (List.range n).flatMap fun i => glyphDots (fglyph c (textRead c (p + i)).toNat) (x + 8 * i) y fg bg

/-- The events of a string of `n` characters (R113). -/
def stringEvents (c : Config) (p x y n : Nat) (fg bg : Byte) : List PortEvent :=
  (List.range n).flatMap fun i => glyphEvents c (fglyph c (textRead c (p + i)).toNat) (x + 8 * i) y fg bg

/-- All that the characters of a string do, where there is one (R113). -/
theorem draws_stringChars {s : State} (hc : s.cfg.wf = true) {p x y n : Nat} (fg bg : Byte)
    (hbox : ∀ i, i < n + 1 → boxInRange s.cfg (x + 8 * i) y) :
    Draws s (forUp (stringChar p x y fg bg) 0 (n + 1) s) (stringDots s.cfg p x y (n + 1) fg bg)
      (stringEvents s.cfg p x y (n + 1) fg bg) (off s.cfg (x + 8 * n + 7) (y + 7)) := by
  have hloop := draws_forUp (stringChar p x y fg bg)
    (fun i => glyphDots (fglyph s.cfg (textRead s.cfg (p + i)).toNat) (x + 8 * i) y fg bg)
    (fun i => glyphEvents s.cfg (fglyph s.cfg (textRead s.cfg (p + i)).toNat) (x + 8 * i) y fg bg)
    (fun i => off s.cfg (x + 8 * i + 7) (y + 7)) s.cfg 0 n s rfl
    (fun i t _ hi ht => by
      have hchar := draws_glyphBody (fglyph t.cfg (textRead t.cfg (p + i)).toNat) (x + 8 * i) y fg bg t
        (ht ▸ hc) (ht ▸ hbox i (by omega))
      rw [ht] at hchar
      simpa only [stringChar, Config.advance, ht] using hchar)
  simpa [stringDots, stringEvents, List.range_eq_range'] using hloop

/-! ### Drawings -/

/-- An effect part that, from every state with the parameters `c`, paints the same legal dots, logs the same events and
leaves the same `ADDR`: it does not depend on the port registers or the `VRAM` it finds. -/
def IsDrawing (c : Config) (effect : State → State) : Prop :=
  ∃ (dots : List Dot) (evs : List PortEvent) (addr : Nat),
    (∀ d ∈ dots, Dot.legal c d) ∧ ∀ s, s.cfg = c → Draws s (effect s) dots evs addr

theorem isDrawing_pixelEffect {c : Config} (hc : c.wf = true) {x y : Nat} {k : Byte} (hr : inRange c x y)
    (hk : legalColor k) : IsDrawing c (pixelEffect x y k) := by
  refine ⟨[(x, y, k)], pixelEvents c x y k, off c x y, List.forall_mem_singleton.2 ⟨hr, hk⟩, ?_⟩
  rintro s rfl
  exact draws_pixelEffect s hc x y k hr

theorem verticalDots_legal {c : Config} {x0 y0 y1 : Nat} {k : Byte} (hr : inRange c x0 y1) (hy : y0 ≤ y1)
    (hk : legalColor k) : ∀ d ∈ verticalDots x0 y0 y1 k, Dot.legal c d := by
  simp only [verticalDots, List.mem_flatMap, List.mem_range'_1, List.mem_singleton]
  rintro d ⟨y, hrange, rfl⟩
  exact ⟨⟨hr.1, by have := hr.2; show y < c.height; omega⟩, hk⟩

theorem horizontalDots_legal {c : Config} {x0 x1 y0 : Nat} {k : Byte} (hr : inRange c x1 y0) (hx : x0 ≤ x1)
    (hk : legalColor k) : ∀ d ∈ horizontalDots x0 x1 y0 k, Dot.legal c d := by
  simp only [horizontalDots, List.mem_flatMap, List.mem_range'_1, List.mem_singleton]
  rintro d ⟨x, hrange, rfl⟩
  exact ⟨⟨by have := hr.1; show x < c.width; omega, hr.2⟩, hk⟩

/-- A supported line with its last point in range (R100, R101). -/
theorem isDrawing_lineEffect {c : Config} (hc : c.wf = true) {x0 y0 x1 y1 : Nat} {k : Byte} (hr : inRange c x1 y1)
    (hline : supportedLine x0 y0 x1 y1) (hk : legalColor k) : IsDrawing c (lineEffect x0 y0 x1 y1 k) := by
  by_cases hx : x0 = x1
  · subst hx
    have hy : y0 ≤ y1 := by unfold supportedLine at hline; omega
    refine ⟨verticalDots x0 y0 y1 k, .sa (off c x0 y0) :: .ss 0#1 :: verticalEvents c x0 y0 y1 k, off c x0 y1,
      verticalDots_legal hr hy hk, ?_⟩
    rintro s rfl
    simpa only [lineEffect, if_true] using draws_verticalPath hc hr hy k
  · obtain ⟨rfl, hlt⟩ : y0 = y1 ∧ x0 < x1 := by unfold supportedLine at hline; omega
    refine ⟨horizontalDots x0 x1 y0 k, .sa (off c x0 y0) :: .ss 0#1 :: horizontalEvents c x0 x1 y0 k, off c x1 y0,
      horizontalDots_legal hr hlt.le hk, ?_⟩
    rintro s rfl
    simpa only [lineEffect, hx, if_false] using draws_horizontalPath hc hr hlt.le k

theorem legalColor_gcol (g : Glyph) (r k : Nat) {fg bg : Byte} (hfg : legalColor fg) (hbg : legalColor bg) :
    legalColor (gcol g r k fg bg) := by
  unfold gcol
  split
  · exact hfg
  · exact hbg

theorem glyphDots_legal {c : Config} (g : Glyph) {x y : Nat} {fg bg : Byte} (hr : boxInRange c x y)
    (hfg : legalColor fg) (hbg : legalColor bg) : ∀ d ∈ glyphDots g x y fg bg, Dot.legal c d := by
  simp only [glyphDots, List.mem_flatMap, List.mem_range, List.mem_singleton]
  rintro d ⟨r, hrow, k, hcol, rfl⟩
  refine ⟨⟨?_, ?_⟩, legalColor_gcol g r k hfg hbg⟩
  · have := hr.1; show x + k < c.width; omega
  · have := hr.2; show y + r < c.height; omega

theorem isDrawing_glyphBody {c : Config} (hc : c.wf = true) (g : Glyph) {x y : Nat} {fg bg : Byte}
    (hr : boxInRange c x y) (hfg : legalColor fg) (hbg : legalColor bg) : IsDrawing c (glyphBody g x y fg bg) := by
  refine ⟨glyphDots g x y fg bg, glyphEvents c g x y fg bg, off c (x + 7) (y + 7), glyphDots_legal g hr hfg hbg, ?_⟩
  rintro s rfl
  exact draws_glyphBody g x y fg bg s hc hr

theorem stringDots_legal {c : Config} {p x y n : Nat} {fg bg : Byte}
    (hbox : ∀ i, i < n → boxInRange c (x + 8 * i) y) (hfg : legalColor fg) (hbg : legalColor bg) :
    ∀ d ∈ stringDots c p x y n fg bg, Dot.legal c d := by
  simp only [stringDots, List.mem_flatMap, List.mem_range]
  rintro d ⟨i, hi, hd⟩
  exact glyphDots_legal _ (hbox i hi) hfg hbg d hd

theorem isDrawing_stringChars {c : Config} (hc : c.wf = true) {p x y n : Nat} {fg bg : Byte}
    (hbox : ∀ i, i < n + 1 → boxInRange c (x + 8 * i) y) (hfg : legalColor fg) (hbg : legalColor bg) :
    IsDrawing c (forUp (stringChar p x y fg bg) 0 (n + 1)) := by
  refine ⟨stringDots c p x y (n + 1) fg bg, stringEvents c p x y (n + 1) fg bg, off c (x + 8 * n + 7) (y + 7),
    stringDots_legal hbox hfg hbg, ?_⟩
  rintro s rfl
  exact draws_stringChars hc fg bg hbox

/-! ### What passed checks say -/

/-- A check passes where what it demands holds. -/
theorem firstError_cons_eq_none {p : Prop} [Decidable p] {k : ErrorKind} {rest : List (Bool × ErrorKind)} :
    firstError ((decide (¬ p), k) :: rest) = none ↔ p ∧ firstError rest = none := by
  by_cases hp : p <;> simp [hp]

theorem checkPart_setpixel_none {x y : Half} {color : Byte} {s : State} :
    checkPart (.setpixel x y color) s = none ↔ inRange s.cfg x.toNat y.toNat ∧ legalColor color := by
  simp only [checkPart, firstError_cons_eq_none, firstError_nil, and_true]

theorem checkPart_drawline_none {x0 y0 x1 y1 : Half} {color : Byte} {s : State} :
    checkPart (.drawline x0 y0 x1 y1 color) s = none ↔
      (inRange s.cfg x0.toNat y0.toNat ∧ inRange s.cfg x1.toNat y1.toNat) ∧
        supportedLine x0.toNat y0.toNat x1.toNat y1.toNat ∧ legalColor color := by
  simp only [checkPart, firstError_cons_eq_none, firstError_nil, and_true]

theorem checkPart_drawglyph_none {g : Glyph} {x y : Half} {fg bg : Byte} {s : State} :
    checkPart (.drawglyph g x y fg bg) s = none ↔
      boxInRange s.cfg x.toNat y.toNat ∧ legalColor fg ∧ legalColor bg := by
  simp only [checkPart, firstError_cons_eq_none, firstError_nil, and_true]

theorem checkPart_drawstring_none {p x y : Half} {fg bg : Byte} {s : State} :
    checkPart (.drawstring p x y fg bg) s = none ↔
      (∃ n, scanString s.cfg p.toNat x.toNat y.toNat = .clean n) ∧ legalColor fg ∧ legalColor bg := by
  simp only [checkPart, stringCheck]
  cases scanString s.cfg p.toNat x.toNat y.toNat with
  | clean n => simp only [scan_error_clean, firstError_cons_eq_none, firstError_nil, and_true, Scan.clean.injEq,
      exists_eq', true_and]
  | raises k => simp

/-- All that the effect part of a composite command other than CLEAR can be: nothing (the empty string), or a
drawing. -/
theorem effectPart_nothing_or_drawing {i : Instr} (hi : isComposite i = true) (hclear : ∀ color, i ≠ .clear color)
    {s : State} (hc : s.cfg.wf = true) (hok : checkPart i s = none) :
    (∀ t, t.cfg = s.cfg → effectPart i t = t) ∨ IsDrawing s.cfg (effectPart i) := by
  cases i with
  | setaddr a => cases hi
  | setstep n => cases hi
  | wrbyte v => cases hi
  | rmw m v => cases hi
  | clear color => exact absurd rfl (hclear color)
  | setpixel x y color =>
    obtain ⟨hr, hk⟩ := checkPart_setpixel_none.1 hok
    exact .inr (isDrawing_pixelEffect hc hr hk)
  | drawline x0 y0 x1 y1 color =>
    obtain ⟨⟨-, hr⟩, hline, hk⟩ := checkPart_drawline_none.1 hok
    exact .inr (isDrawing_lineEffect hc hr hline hk)
  | drawglyph g x y fg bg =>
    obtain ⟨hr, hfg, hbg⟩ := checkPart_drawglyph_none.1 hok
    exact .inr (isDrawing_glyphBody hc g hr hfg hbg)
  | drawstring p x y fg bg =>
    obtain ⟨⟨n, hscan⟩, hfg, hbg⟩ := checkPart_drawstring_none.1 hok
    have heffect : ∀ t, t.cfg = s.cfg → effectPart (.drawstring p x y fg bg) t =
        forUp (stringChar p.toNat x.toNat y.toNat fg bg) 0 n t := fun t ht => by
      simp only [effectPart, ht, hscan, scan_count_clean]
    cases n with
    | zero => exact .inl heffect
    | succ n =>
      have hchars := (stringOf_of_scanString_clean hscan).1
      obtain ⟨dots, evs, addr, hlegal, hdraws⟩ :=
        isDrawing_stringChars (p := p.toNat) hc (fun i hi => (hchars i hi).2.1) hfg hbg
      exact .inr ⟨dots, evs, addr, hlegal, fun t ht => heffect t ht ▸ hdraws t ht⟩

/-! ### CLEAR -/

/-- From `s` to `t` the bytes `0 .. n - 1` are written with `v` in ascending order, and the port has stepped
past them. -/
structure Fills (v : Byte) (n : Nat) (s t : State) : Prop where
  port : PortOnly s t
  addr : t.addr.toNat = n
  step : t.stepReg = 1#1
  events : t.events = s.events ++ (List.range n).map fun k => .wr k v
  vramWf : t.vram.wfSized s.cfg.surfaceBytes = true
  read : ∀ a, t.vram.read a = if a < n then v else s.vram.read a

/-- One more stepped write. -/
theorem Fills.succ {v : Byte} {n : Nat} {s t : State} (h : Fills v n s t) (hn : n < s.cfg.surfaceBytes)
    (hsize : s.cfg.surfaceBytes ≤ 65535) : Fills v (n + 1) s (portWrite v t) where
  port := h.port.trans (portOnly_portWrite v t)
  addr := by
    have hone : ((1#1).setWidth 16).toNat = 1 := rfl
    rw [portWrite_addr, BitVec.toNat_add, h.addr, h.step, hone, Nat.mod_eq_of_lt (by omega)]
  step := h.step
  events := by
    rw [events_of_trace_cons _ _ _ (portWrite_trace v t), h.events, h.addr, List.range_succ, List.map_append,
      List.append_assoc]
    rfl
  vramWf := by
    rw [portWrite_vram, h.addr]
    exact Memory.wfSized_write _ _ _ _ h.vramWf hn
  read := fun a => by
    rw [portWrite_vram, h.addr, Memory.read_write _ (Memory.wf_of_wfSized h.vramWf), h.read]
    by_cases ha : a = n
    · simp [ha]
    · have hsucc : a < n + 1 ↔ a < n := by omega
      simp only [ha, hsucc, if_false]

/-- All that the effect part of CLEAR does, from the state in which it has programmed the port (R94). -/
theorem fills_clearEffect {s : State} (hc : s.cfg.wf = true) (hv : s.vram.wfSized s.cfg.surfaceBytes = true)
    (color : Byte) :
    Fills (fill color) s.cfg.surfaceBytes (portSetstep 1#1 (portSetaddr 0 s)) (clearEffect color s) := by
  obtain ⟨-, -, -, -, -, hsize⟩ := cfg_bounds hc
  have hloop := forUp_invariant (fun n t => Fills (fill color) n (portSetstep 1#1 (portSetaddr 0 s)) t)
    (fun _ => portWrite (fill color)) 0 s.cfg.surfaceBytes (portSetstep 1#1 (portSetaddr 0 s))
    ⟨.refl _, rfl, rfl, by simp, hv, by simp⟩
    (fun n t _ hn ht => ht.succ (by simpa using hn) hsize)
  rwa [Nat.zero_add] at hloop

end Sys2Proof.Machine
end

section
/-! SUPPORT. A successful composite command issued again (R13, R105 (c)). -/

namespace Sys2Proof.Machine

/-- Two states that agree in every field but `TRACE`. -/
theorem eq_with_trace {t u : State} (haddr : u.addr.toNat = t.addr.toNat) (hstep : u.stepReg = t.stepReg)
    (herr : u.err = t.err) (hvram : u.vram = t.vram) (hcfg : u.cfg = t.cfg) (hcommands : u.commands = t.commands) :
    u = { t with trace := u.trace } := by
  have haddr := BitVec.eq_of_toNat_eq haddr
  cases u
  cases t
  simp_all

/-- Dots painted again change nothing: the last dot at a coordinate shows there either way. -/
theorem paintAll_idempotent {c : Config} (hc : c.wf = true) {dots : List Dot} (hd : ∀ d ∈ dots, Dot.legal c d)
    {vram : Memory} (hv : vram.wfSized c.surfaceBytes = true) :
    paintAll c dots (paintAll c dots vram) = paintAll c dots vram := by
  have hv' := wfSized_paintAll hc hd hv
  refine vram_ext hc (wfSized_paintAll hc hd hv') hv' fun x y hr => ?_
  rw [pixel_paintAll hc hd hv' hr, pixel_paintAll hc hd hv hr]
  cases lastDot x y dots <;> rfl

/-- A drawing made again leaves the state as it was, but for `TRACE`. -/
theorem IsDrawing.again {effect : State → State} {s t : State} (h : IsDrawing s.cfg effect) (hs : Inv s)
    (ht : t = complete (effect s)) : complete (effect t) = { t with trace := (complete (effect t)).trace } := by
  obtain ⟨dots, evs, addr, hlegal, hdraws⟩ := h
  have hfirst := hdraws s rfl
  have hcfg : t.cfg = s.cfg := ht ▸ hfirst.cfg
  have hvram : t.vram = paintAll s.cfg dots s.vram := ht ▸ hfirst.vram
  have hagain := hdraws t hcfg
  refine eq_with_trace ?_ ?_ ?_ ?_ hagain.cfg hagain.commands
  · exact hagain.addr.trans (ht ▸ hfirst.addr.symm)
  · exact hagain.step.trans (ht ▸ hfirst.step.symm)
  · exact ht ▸ rfl
  · rw [complete_vram, hagain.vram, hcfg, hvram, paintAll_idempotent hs.cfgWf hlegal hs.vramWf]

/-- A CLEAR made again leaves the state as it was, but for `TRACE`. -/
theorem clearEffect_again {color : Byte} {s t : State} (hs : Inv s) (ht : t = complete (clearEffect color s)) :
    complete (clearEffect color t) = { t with trace := (complete (clearEffect color t)).trace } := by
  have hfirst := fills_clearEffect hs.cfgWf hs.vramWf color
  have hcfg : t.cfg = s.cfg := ht ▸ hfirst.port.cfg
  have hwf : t.vram.wfSized s.cfg.surfaceBytes = true := ht ▸ hfirst.vramWf
  have hread : ∀ a, t.vram.read a = if a < s.cfg.surfaceBytes then fill color else s.vram.read a :=
    ht ▸ hfirst.read
  have hagain := fills_clearEffect (s := t) (hcfg ▸ hs.cfgWf) (hcfg ▸ hwf) color
  refine eq_with_trace ?_ ?_ ?_ ?_ hagain.port.cfg hagain.port.commands
  · exact hagain.addr.trans ((congrArg _ hcfg).trans (ht ▸ hfirst.addr.symm))
  · exact hagain.step.trans (ht ▸ hfirst.step.symm)
  · exact ht ▸ rfl
  · refine Memory.ext_wf _ _ (Memory.wf_of_wfSized hagain.vramWf) (Memory.wf_of_wfSized hwf) fun a => ?_
    rw [complete_vram, hagain.read, hcfg, portSetstep_vram, portSetaddr_vram, hread]
    split_ifs <;> rfl

/-- The effect part of a composite command whose checks passed, made again. -/
theorem effectPart_again {i : Instr} (hi : isComposite i = true) {s t : State} (hs : Inv s)
    (hok : checkPart i s = none) (ht : t = complete (effectPart i s)) :
    complete (effectPart i t) = { t with trace := (complete (effectPart i t)).trace } := by
  by_cases hclear : ∃ color, i = .clear color
  · obtain ⟨color, rfl⟩ := hclear
    exact clearEffect_again hs ht
  · rcases effectPart_nothing_or_drawing hi (not_exists.1 hclear) hs.cfgWf hok with hnothing | hdrawing
    · have hcfg : t.cfg = s.cfg := ht ▸ (portOnly_effectPart i s).cfg
      rw [hnothing t hcfg]
      exact eq_with_trace rfl rfl (ht ▸ rfl) rfl rfl rfl
    · exact hdrawing.again hs ht

end Sys2Proof.Machine
end

section
/-! CLAIMS. The statements of spec/00_scope.md. -/

namespace Sys2Proof.Machine

/-- Settles O48: the checks of a composite command depend on the parameters alone, which it keeps, so that they pass
again; and what its effect part leaves does not change when it is made again. -/
theorem compositeCommandsAreIdempotent : Obligations.CompositeCommandsAreIdempotent := by
  intro i s t hi hs hexec herr
  obtain ⟨hok, hreach, ht⟩ := exec_success hexec herr
  have hcfg : t.cfg = s.cfg := (exec_keeps_parameters hexec).1
  refine ⟨complete (effectPart i t), exec_completes ?_ ?_, effectPart_again hi hs hok ht⟩
  · rw [checkPart_congr hi hcfg, hok]
  · rwa [reachPart_congr hi hcfg, hcfg]

/-- Settles O17, from what a command keeps and the cases of a step. -/
theorem parametersNeverChange : Obligations.ParametersNeverChange := by
  refine ⟨fun i s t h => exec_keeps_parameters h, fun s t h => ?_⟩
  obtain ⟨-, ⟨hidle, rfl⟩ | ⟨w, rest, hw, ⟨i, -, hexec⟩ | ⟨-, rfl⟩⟩⟩ := step_cases h
  · exact ⟨rfl, by rw [hidle]; rfl⟩
  · rw [hw]
    exact exec_keeps_parameters hexec
  · exact ⟨rfl, by rw [hw]; rfl⟩

/-- Settles O15: a configuration that is well formed meets every constraint of R7 (`cfg_bounds`), so one that breaks a
constraint is not, and the step refuses it. -/
theorem configurationOutsideR7IsRefused : Obligations.ConfigurationOutsideR7IsRefused := by
  intro s hbreaks
  exact step_of_not_wf (Bool.eq_false_iff.2 fun hwf => hbreaks (cfg_bounds hwf))

end Sys2Proof.Machine
end

section
/-! SUPPORT. The invariants of spec/10_state.md rule R33: each port micro-operation keeps them under its precondition
(spec/40_pixelport.md rule R80), and every effect part meets those preconditions, because its checks passed. -/

namespace Sys2Proof.Machine

/-! ### Where the invariants hold at once -/

/-- A surface has at least one byte (R7). -/
theorem surfaceBytes_pos {c : Config} (hc : c.wf = true) : 0 < c.surfaceBytes := by
  obtain ⟨-, hwidth, -, hheight, -, -⟩ := cfg_bounds hc
  exact Nat.zero_lt_of_lt (off_lt hc (x := 0) (y := 0) ⟨by omega, hheight⟩)

/-- Where `ADDR` is a `VRAM` address, clause (e) of R33 asks nothing. -/
theorem Inv.of_addr_lt {s : State} (hc : s.cfg.wf = true) (haddr : s.addr.toNat < s.cfg.surfaceBytes)
    (herr : s.err.toNat ≤ 6) (hvram : s.vram.wfSized s.cfg.surfaceBytes = true)
    (hstep : s.stepReg = stepAfter s.trace) : Inv s :=
  ⟨hc, haddr.le, herr, hvram, hstep, fun hend => absurd hend haddr.ne⟩

/-- Reset with a configuration of the hardware and a `VRAM` of `SBC` bytes (R34). -/
theorem inv_resetWith {cfg : Config} {vram : Memory} (hc : cfg.wf = true)
    (hv : vram.wfSized cfg.surfaceBytes = true) : Inv (State.resetWith cfg vram) :=
  .of_addr_lt hc (surfaceBytes_pos hc) (Nat.zero_le 6) hv rfl

/-- The invariants ask nothing of the command port. -/
theorem Inv.withCommands {s : State} (h : Inv s) (ws : List CommandWord) : Inv { s with commands := ws } :=
  ⟨h.cfgWf, h.addrLe, h.errLe, h.vramWf, h.stepTraced, h.pastEnd⟩

/-- Any result of R23 may stand in `ERR`. -/
theorem Inv.withErr {s : State} (h : Inv s) {e : BitVec 3} (he : e.toNat ≤ 6) : Inv { s with err := e } :=
  ⟨h.cfgWf, h.addrLe, he, h.vramWf, h.stepTraced, h.pastEnd⟩

theorem Inv.after_issue {s : State} (h : Inv s) (w : CommandWord) : Inv (s.issue w) := h.withCommands _

theorem Inv.after_raise {s : State} (h : Inv s) (k : ErrorKind) : Inv (raise k s) := h.withErr (code_le_six k)

theorem Inv.after_complete {s : State} (h : Inv s) : Inv (complete s) := h.withErr (Nat.zero_le 6)

/-! ### The micro-operations under their preconditions -/

theorem Inv.after_portSetaddr {s : State} (h : Inv s) {a : Nat} (ha : a < s.cfg.surfaceBytes) :
    Inv (portSetaddr a s) := by
  obtain ⟨-, -, -, -, -, hsize⟩ := cfg_bounds h.cfgWf
  have haddr : (portSetaddr a s).addr.toNat = a := by
    rw [portSetaddr_addr, BitVec.toNat_ofNat, Nat.mod_eq_of_lt (by omega)]
  exact .of_addr_lt h.cfgWf (haddr.symm ▸ ha) h.errLe h.vramWf h.stepTraced

/-- A SETSTEP is looked through where the trace is asked why `ADDR = SBC`. -/
theorem Inv.after_portSetstep {s : State} (h : Inv s) (n : BitVec 1) : Inv (portSetstep n s) :=
  ⟨h.cfgWf, h.addrLe, h.errLe, h.vramWf, rfl, h.pastEnd⟩

/-- Where a write leaves `ADDR`: it steps without a wrap. -/
theorem portWrite_addr_toNat {s : State} (hc : s.cfg.wf = true) (haddr : s.addr.toNat < s.cfg.surfaceBytes)
    (v : Byte) : (portWrite v s).addr.toNat = s.addr.toNat + s.stepReg.toNat := by
  obtain ⟨-, -, -, -, -, hsize⟩ := cfg_bounds hc
  have hstep := s.stepReg.isLt
  rw [portWrite_addr, BitVec.toNat_add, BitVec.toNat_setWidth_of_le (by decide), Nat.mod_eq_of_lt (by omega)]

/-- A write is the one micro-operation that can leave `ADDR = SBC`: at the last byte, with `STEP = 1`. -/
theorem Inv.after_portWrite {s : State} (h : Inv s) (haddr : s.addr.toNat < s.cfg.surfaceBytes) (v : Byte) :
    Inv (portWrite v s) := by
  have hnext := portWrite_addr_toNat h.cfgWf haddr v
  have hstep := s.stepReg.isLt
  refine ⟨h.cfgWf, ?_, h.errLe, Memory.wfSized_write _ _ _ _ h.vramWf haddr, h.stepTraced, fun hend => ?_⟩
  · rw [hnext, portWrite_cfg]
    omega
  · rw [hnext, portWrite_cfg] at hend
    have hlast : s.addr.toNat = s.cfg.surfaceBytes - 1 := by omega
    have hone : s.stepReg = 1#1 := BitVec.eq_of_toNat_eq (show s.stepReg.toNat = 1 by omega)
    exact decide_eq_true ⟨hlast, h.stepTraced ▸ hone⟩

theorem Inv.after_portRmw {s : State} (h : Inv s) (haddr : s.addr.toNat < s.cfg.surfaceBytes) (m v : Byte) :
    Inv (portRmw m v s) :=
  .of_addr_lt h.cfgWf haddr h.errLe (Memory.wfSized_write _ _ _ _ h.vramWf haddr) h.stepTraced

/-- Where an advance leaves `ADDR`: it adds without a wrap. -/
theorem portAdv_addr_toNat {s : State} (hc : s.cfg.wf = true) {d : Nat}
    (hd : s.addr.toNat + d < s.cfg.surfaceBytes) : (portAdv d s).addr.toNat = s.addr.toNat + d := by
  obtain ⟨-, -, -, -, -, hsize⟩ := cfg_bounds hc
  rw [portAdv_addr, BitVec.toNat_add, BitVec.toNat_ofNat, Nat.add_mod_mod, Nat.mod_eq_of_lt (by omega)]

theorem Inv.after_portAdv {s : State} (h : Inv s) {d : Nat} (hd : s.addr.toNat + d < s.cfg.surfaceBytes) :
    Inv (portAdv d s) :=
  .of_addr_lt h.cfgWf (by rwa [portAdv_addr_toNat h.cfgWf hd]) h.errLe h.vramWf h.stepTraced

/-! ### The effect parts -/

/-- A loop keeps the invariants if each of its bodies does, and nothing but the port changes. -/
theorem Inv.after_forUp {s : State} (h : Inv s) {body : Nat → State → State} {a n : Nat}
    (hport : ∀ i t, PortOnly t (body i t))
    (hbody : ∀ i t, i < a + n → t.cfg = s.cfg → Inv t → Inv (body i t)) : Inv (forUp body a n s) :=
  (forUp_invariant (fun _ t => t.cfg = s.cfg ∧ Inv t) body a n s ⟨rfl, h⟩
    fun i t _ hi ⟨hcfg, ht⟩ => ⟨(hport i t).cfg.trans hcfg, hbody i t hi hcfg ht⟩).2

/-- One pixel in range (R95). -/
theorem Inv.after_pixelEffect {s : State} (h : Inv s) {x y : Nat} (hr : inRange s.cfg x y) (color : Byte) :
    Inv (pixelEffect x y color s) := by
  have hoff := off_lt h.cfgWf hr
  have hprogram := (h.after_portSetaddr hoff).after_portSetstep 0#1
  have haddr := (draws_program s (off_lt_two_pow h.cfgWf hr)).addr
  exact hprogram.after_portRmw (haddr.trans_lt hoff) _ _

/-- A glyph whose box is in range (R114). -/
theorem Inv.after_glyphBody {s : State} (h : Inv s) (g : Glyph) {x y : Nat} (hr : boxInRange s.cfg x y) (fg bg : Byte) :
    Inv (glyphBody g x y fg bg s) := by
  obtain ⟨hx, hy⟩ := hr
  refine h.after_forUp (fun r t => portOnly_forUp (fun c => portOnly_pixelEffect _ _ _) 0 8 t)
    fun r t hrow hcfg ht => ?_
  refine ht.after_forUp (fun c => portOnly_pixelEffect _ _ _) fun c u hcol hcfg' hu => hu.after_pixelEffect ?_ _
  rw [hcfg'.trans hcfg]
  exact ⟨by omega, by omega⟩

/-- The characters of a string whose boxes are in range (R113). -/
theorem Inv.after_stringChars {s : State} (h : Inv s) {p x y n : Nat}
    (hbox : ∀ i, i < n → boxInRange s.cfg (x + 8 * i) y) (fg bg : Byte) : Inv (forUp (stringChar p x y fg bg) 0 n s) :=
  h.after_forUp (fun _ _ => portOnly_glyphBody _ _ _ _ _ _) fun i _ hi hcfg ht =>
    ht.after_glyphBody _ (hcfg ▸ hbox i (by omega)) fg bg

/-- The state inside a line loop: the parameters are those of the start, and `ADDR` holds the offset of the next
pixel. -/
structure LineAt (c : Config) (x y : Nat) (t : State) : Prop where
  inv : Inv t
  cfg : t.cfg = c
  addr : t.addr.toNat = off c x y

/-- The prologue of a line (R102, R103). -/
theorem Inv.lineAt_after_program {s : State} (h : Inv s) {x y : Nat} (hr : inRange s.cfg x y) :
    LineAt s.cfg x y (portSetstep 0#1 (portSetaddr (off s.cfg x y) s)) where
  inv := (h.after_portSetaddr (off_lt h.cfgWf hr)).after_portSetstep 0#1
  cfg := rfl
  addr := (draws_program s (off_lt_two_pow h.cfgWf hr)).addr

/-- A pixel of a line drawn, `ADDR` not advanced. -/
theorem LineAt.after_portRmw {c : Config} {x y : Nat} {t : State} (h : LineAt c x y t) (hr : inRange c x y)
    (m v : Byte) : LineAt c x y (portRmw m v t) where
  inv := h.inv.after_portRmw (by rw [h.addr, h.cfg]; exact off_lt (h.cfg ▸ h.inv.cfgWf) hr) m v
  cfg := h.cfg
  addr := h.addr

/-- `ADDR` advanced to a later pixel of the line. -/
theorem LineAt.after_portAdv {c : Config} {x y x' y' d : Nat} {t : State} (h : LineAt c x y t) (hr : inRange c x' y')
    (hd : off c x' y' = off c x y + d) : LineAt c x' y' (portAdv d t) := by
  have hlt : t.addr.toNat + d < t.cfg.surfaceBytes := by
    rw [h.addr, h.cfg, ← hd]
    exact off_lt (h.cfg ▸ h.inv.cfgWf) hr
  exact ⟨h.inv.after_portAdv hlt, h.cfg, by rw [portAdv_addr_toNat h.inv.cfgWf hlt, h.addr, hd]⟩

/-- A line loop keeps the invariants if each body but the last ends at the next pixel, and the last one keeps them. -/
theorem inv_lineLoop {c : Config} {body : Nat → State → State} {px py : Nat → Nat} {first last : Nat} {s : State}
    (hle : first ≤ last) (hs : LineAt c (px first) (py first) s)
    (hnext : ∀ i t, i < last → LineAt c (px i) (py i) t → LineAt c (px (i + 1)) (py (i + 1)) (body i t))
    (hlast : ∀ t, LineAt c (px last) (py last) t → Inv (body last t)) :
    Inv (forUp body first (last + 1 - first) s) := by
  have hcount : last + 1 - first = last - first + 1 := by omega
  have hend : first + (last - first) = last := by omega
  have hloop := forUp_invariant (fun i t => LineAt c (px i) (py i) t) body first (last - first) s hs
    fun i t _ hi => hnext i t (by omega)
  rw [hend] at hloop
  rw [hcount, forUp_snoc, hend]
  exact hlast _ hloop

/-- A vertical line whose last point is in range (R102). -/
theorem Inv.after_verticalPath {s : State} (h : Inv s) {x0 y0 y1 : Nat} (hr : inRange s.cfg x0 y1) (hy : y0 ≤ y1)
    (color : Byte) : Inv (verticalPath x0 y0 y1 color s) := by
  have hrow : ∀ y, y ≤ y1 → inRange s.cfg x0 y := fun y hle => ⟨hr.1, hle.trans_lt hr.2⟩
  refine inv_lineLoop (px := fun _ => x0) (py := id) hy (h.lineAt_after_program (hrow y0 hy)) ?_ ?_
  · intro y t hlt ht
    rw [verticalRow, if_pos hlt, ht.cfg]
    exact (ht.after_portRmw (hrow y hlt.le) _ _).after_portAdv (hrow (y + 1) hlt) (off_succ_row s.cfg x0 y)
  · intro t ht
    rw [verticalRow, if_neg (Nat.lt_irrefl y1)]
    exact (ht.after_portRmw hr _ _).inv

/-- A horizontal line whose last point is in range (R103). -/
theorem Inv.after_horizontalPath {s : State} (h : Inv s) {x0 x1 y0 : Nat} (hr : inRange s.cfg x1 y0) (hx : x0 ≤ x1)
    (color : Byte) : Inv (horizontalPath x0 x1 y0 color s) := by
  have hcolumn : ∀ x, x ≤ x1 → inRange s.cfg x y0 := fun x hle => ⟨hle.trans_lt hr.1, hr.2⟩
  refine inv_lineLoop (px := id) (py := fun _ => y0) hx (h.lineAt_after_program (hcolumn x0 hx)) ?_ ?_
  · intro x t hlt ht
    have hdrawn := ht.after_portRmw (hcolumn x hlt.le) (pmask x) (pval x color)
    have hoff := off_succ_column s.cfg x y0
    by_cases hodd : x % 2 = 1
    · rw [horizontalPixel, if_pos ⟨hlt, (nib_eq_lo_iff x).2 hodd⟩]
      exact hdrawn.after_portAdv (hcolumn (x + 1) hlt) (hodd ▸ hoff)
    · rw [horizontalPixel, if_neg fun hadv => hodd ((nib_eq_lo_iff x).1 hadv.2)]
      have hsame : off s.cfg (x + 1) y0 = off s.cfg x y0 := by omega
      exact ⟨hdrawn.inv, hdrawn.cfg, hdrawn.addr.trans hsame.symm⟩
  · intro t ht
    rw [horizontalPixel, if_neg fun hadv => Nat.lt_irrefl x1 hadv.1]
    exact (ht.after_portRmw hr _ _).inv

/-- A supported line whose last point is in range (R100, R101). -/
theorem Inv.after_lineEffect {s : State} (h : Inv s) {x0 y0 x1 y1 : Nat} (hr : inRange s.cfg x1 y1)
    (hline : supportedLine x0 y0 x1 y1) (color : Byte) : Inv (lineEffect x0 y0 x1 y1 color s) := by
  unfold lineEffect
  split
  · next hx =>
    subst hx
    exact h.after_verticalPath hr (by unfold supportedLine at hline; omega) color
  · next hx =>
    obtain ⟨rfl, hlt⟩ : y0 = y1 ∧ x0 < x1 := by unfold supportedLine at hline; omega
    exact h.after_horizontalPath hr hlt.le color

/-- CLEAR: each of its writes finds `ADDR` inside the surface (R94). -/
theorem Inv.after_clearEffect {s : State} (h : Inv s) (color : Byte) : Inv (clearEffect color s) := by
  obtain ⟨-, -, -, -, -, hsize⟩ := cfg_bounds h.cfgWf
  have hprogram := (h.after_portSetaddr (surfaceBytes_pos h.cfgWf)).after_portSetstep 1#1
  have hloop := forUp_invariant
    (fun n t => Inv t ∧ Fills (fill color) n (portSetstep 1#1 (portSetaddr 0 s)) t)
    (fun _ => portWrite (fill color)) 0 s.cfg.surfaceBytes _
    ⟨hprogram, .refl _, rfl, rfl, by simp, h.vramWf, by simp⟩
    fun n t _ hn ⟨ht, hfills⟩ => by
      rw [Nat.zero_add] at hn
      have hcfg : t.cfg = s.cfg := hfills.port.cfg
      exact ⟨ht.after_portWrite (by rwa [hfills.addr, hcfg]) _, hfills.succ hn hsize⟩
  exact hloop.1

/-! ### Commands and steps -/

theorem checkPart_setaddr_none {a : Half} {s : State} :
    checkPart (.setaddr a) s = none ↔ a.toNat < s.cfg.surfaceBytes := by
  simp [checkPart]

theorem checkPart_wrbyte_none {v : Byte} {s : State} :
    checkPart (.wrbyte v) s = none ↔ s.addr.toNat < s.cfg.surfaceBytes := by
  simp [checkPart]

theorem checkPart_rmw_none {m v : Byte} {s : State} :
    checkPart (.rmw m v) s = none ↔ s.addr.toNat < s.cfg.surfaceBytes ∧ s.stepReg = 0#1 := by
  by_cases haddr : s.cfg.surfaceBytes ≤ s.addr.toNat
  · simp [checkPart, haddr]
  · simp [checkPart, haddr, Nat.lt_of_not_le haddr]

/-- The effect part of a command whose checks passed keeps the invariants. -/
theorem Inv.after_effectPart {s : State} (h : Inv s) {i : Instr} (hok : checkPart i s = none) :
    Inv (effectPart i s) := by
  cases i with
  | setaddr a => exact h.after_portSetaddr (checkPart_setaddr_none.1 hok)
  | setstep n => exact h.after_portSetstep n
  | wrbyte v => exact h.after_portWrite (checkPart_wrbyte_none.1 hok) v
  | rmw m v => exact h.after_portRmw (checkPart_rmw_none.1 hok).1 m v
  | clear color => exact h.after_clearEffect color
  | setpixel x y color => exact h.after_pixelEffect (checkPart_setpixel_none.1 hok).1 color
  | drawline x0 y0 x1 y1 color =>
    obtain ⟨⟨-, hr⟩, hline, -⟩ := checkPart_drawline_none.1 hok
    exact h.after_lineEffect hr hline color
  | drawglyph g x y fg bg => exact h.after_glyphBody g (checkPart_drawglyph_none.1 hok).1 fg bg
  | drawstring p x y fg bg =>
    obtain ⟨⟨n, hscan⟩, -, -⟩ := checkPart_drawstring_none.1 hok
    have hchars := (stringOf_of_scanString_clean hscan).1
    simp only [effectPart, hscan, scan_count_clean]
    exact h.after_stringChars (fun i hi => (hchars i hi).2.1) fg bg

/-- Every command that answers a next state keeps the invariants. -/
theorem Inv.after_exec {s t : State} (h : Inv s) {i : Instr} (hexec : exec i s = .next t) : Inv t := by
  rcases exec_cases hexec with ⟨k, -, rfl⟩ | ⟨hok, -, rfl⟩
  · exact h.after_raise k
  · exact (h.after_effectPart hok).after_complete

/-- Every step that answers a next state keeps the invariants. -/
theorem Inv.after_step {s t : State} (h : Inv s) (hstep : step s = .next t) : Inv t := by
  obtain ⟨-, ⟨-, rfl⟩ | ⟨w, rest, -, ⟨i, -, hexec⟩ | ⟨-, rfl⟩⟩⟩ := step_cases hstep
  · exact h
  · exact (h.withCommands rest).after_exec hexec
  · exact (h.withCommands rest).withErr (by decide)

end Sys2Proof.Machine
end

section
/-! SUPPORT. No composite command depends on the port registers it finds (R24, R105 (d)): its effect part programs both
before it uses either, unless it has no effect at all. -/

namespace Sys2Proof.Machine

/-- An effect part does the same from `s` whatever `ADDR` and `STEP` hold there. -/
def IgnoresPort (effect : State → State) (s : State) : Prop :=
  ∀ (a : Half) (n : BitVec 1), effect { s with addr := a, stepReg := n } = effect s

/-- Programming the port overwrites both registers. -/
theorem ignoresPort_program (a : Nat) (n : BitVec 1) (s : State) :
    IgnoresPort (fun s => portSetstep n (portSetaddr a s)) s := fun _ _ => rfl

/-- What follows the programming of the port ignores what the registers held before. -/
theorem IgnoresPort.comp {effect : State → State} {s : State} (h : IgnoresPort effect s) (rest : State → State) :
    IgnoresPort (fun s => rest (effect s)) s := fun a n => congrArg rest (h a n)

/-- A loop of at least one body ignores the port if its first body does. -/
theorem ignoresPort_forUp {body : Nat → State → State} {a : Nat} {s : State} (h : IgnoresPort (body a) s)
    (n : Nat) : IgnoresPort (forUp body a (n + 1)) s := h.comp (forUp body (a + 1) n)

theorem ignoresPort_clearEffect (color : Byte) (s : State) : IgnoresPort (clearEffect color) s :=
  (ignoresPort_program 0 1#1 s).comp (forUp (fun _ => portWrite (fill color)) 0 s.cfg.surfaceBytes)

theorem ignoresPort_pixelEffect (x y : Nat) (color : Byte) (s : State) : IgnoresPort (pixelEffect x y color) s :=
  (ignoresPort_program (off s.cfg x y) 0#1 s).comp (portRmw (pmask x) (pval x color))

theorem ignoresPort_verticalPath (x0 y0 y1 : Nat) (color : Byte) (s : State) :
    IgnoresPort (verticalPath x0 y0 y1 color) s :=
  (ignoresPort_program (off s.cfg x0 y0) 0#1 s).comp
    (forUp (verticalRow (pmask x0) (pval x0 color) y1) y0 (y1 + 1 - y0))

theorem ignoresPort_horizontalPath (x0 x1 y0 : Nat) (color : Byte) (s : State) :
    IgnoresPort (horizontalPath x0 x1 y0 color) s :=
  (ignoresPort_program (off s.cfg x0 y0) 0#1 s).comp (forUp (horizontalPixel color x1) x0 (x1 + 1 - x0))

theorem ignoresPort_lineEffect (x0 y0 x1 y1 : Nat) (color : Byte) (s : State) :
    IgnoresPort (lineEffect x0 y0 x1 y1 color) s := by
  intro a n
  unfold lineEffect
  split
  · exact ignoresPort_verticalPath x0 y0 y1 color s a n
  · exact ignoresPort_horizontalPath x0 x1 y0 color s a n

theorem ignoresPort_glyphBody (g : Glyph) (x y : Nat) (fg bg : Byte) (s : State) :
    IgnoresPort (glyphBody g x y fg bg) s :=
  have hrow (r : Nat) : IgnoresPort (forUp (fun c => pixelEffect (x + c) (y + r) (gcol g r c fg bg)) 0 8) s :=
    ignoresPort_forUp (ignoresPort_pixelEffect _ _ _ s) 7
  ignoresPort_forUp (body := fun r => forUp (fun c => pixelEffect (x + c) (y + r) (gcol g r c fg bg)) 0 8)
    (hrow 0) 7

theorem ignoresPort_stringChar (p x y : Nat) (fg bg : Byte) (i : Nat) (s : State) :
    IgnoresPort (stringChar p x y fg bg i) s := fun a n =>
  ignoresPort_glyphBody (fglyph s.cfg (textRead s.cfg (p + i)).toNat) (x + Config.advance * i) y fg bg s a n

/-- The effect part of a composite command does nothing (the empty string), or ignores the port registers. -/
theorem effectPart_nothing_or_ignoresPort {i : Instr} (hi : isComposite i = true) (s : State) :
    (∀ t, t.cfg = s.cfg → effectPart i t = t) ∨ IgnoresPort (effectPart i) s := by
  cases i with
  | setaddr a => cases hi
  | setstep n => cases hi
  | wrbyte v => cases hi
  | rmw m v => cases hi
  | clear color => exact .inr (ignoresPort_clearEffect color s)
  | setpixel x y color => exact .inr (ignoresPort_pixelEffect _ _ color s)
  | drawline x0 y0 x1 y1 color => exact .inr (ignoresPort_lineEffect _ _ _ _ color s)
  | drawglyph g x y fg bg => exact .inr (ignoresPort_glyphBody g _ _ fg bg s)
  | drawstring p x y fg bg =>
    have heffect : ∀ t, t.cfg = s.cfg → effectPart (.drawstring p x y fg bg) t =
        forUp (stringChar p.toNat x.toNat y.toNat fg bg) 0 (scanString s.cfg p.toNat x.toNat y.toNat).count t :=
      fun t ht => by simp only [effectPart, ht]
    cases hcount : (scanString s.cfg p.toNat x.toNat y.toNat).count with
    | zero => exact .inl fun t ht => by rw [heffect t ht, hcount, forUp_zero]
    | succ n =>
      refine .inr fun a m => ?_
      have hloop := ignoresPort_forUp (ignoresPort_stringChar p.toNat x.toNat y.toNat fg bg 0 s) n a m
      rw [← hcount] at hloop
      exact (heffect { s with addr := a, stepReg := m } rfl).trans (hloop.trans (heffect s rfl).symm)

end Sys2Proof.Machine
end

section
/-! CLAIMS. The statements of spec/10_state.md. -/

namespace Sys2Proof.Machine

/-- Settles O9: each micro-operation keeps the invariants under its precondition, and the checks of a command see to the
preconditions of its effect part. -/
theorem invariantKeptByEveryStep : Obligations.InvariantKeptByEveryStep := fun _ _ hs hstep => hs.after_step hstep

/-- Settles O10, by induction on how the state was reached. -/
theorem reachableStatesMeetInvariant : Obligations.ReachableStatesMeetInvariant := by
  intro s hs
  induction hs with
  | reset cfg vram hc hv => exact inv_resetWith hc hv
  | issue w s _ ih => exact ih.after_issue w
  | step s t _ hstep ih => exact ih.after_step hstep

/-- Settles O49: the checks and the reach of a composite command depend on the parameters alone, and its effect part
does nothing or overwrites both registers before it uses them. -/
theorem compositeCommandsIgnorePortRegisters : Obligations.CompositeCommandsIgnorePortRegisters := by
  intro i s t a n hi hexec
  have hcheck : checkPart i { s with addr := a, stepReg := n } = checkPart i s := checkPart_congr hi rfl
  have hreach : reachPart i { s with addr := a, stepReg := n } = reachPart i s := reachPart_congr hi rfl
  rcases exec_cases hexec with ⟨k, hk, rfl⟩ | ⟨hok, hlt, rfl⟩
  · refine ⟨raise k { s with addr := a, stepReg := n }, ?_, rfl, fun htrace => absurd rfl htrace⟩
    rw [exec_eq_command, hcheck, hk, command_raises]
  · refine ⟨_, exec_completes (hcheck.trans hok) (hreach ▸ hlt), ?_⟩
    rcases effectPart_nothing_or_ignoresPort hi s with hnothing | hsame
    · rw [hnothing { s with addr := a, stepReg := n } rfl, hnothing s rfl]
      exact ⟨rfl, fun htrace => absurd rfl htrace⟩
    · rw [hsame a n]
      exact ⟨rfl, fun _ => rfl⟩

/-- Settles O7: reset writes each of these values down. -/
theorem resetLeavesTheStatedValues : Obligations.ResetLeavesTheStatedValues :=
  fun _ _ => ⟨rfl, rfl, rfl, rfl, rfl, rfl, rfl⟩

/-- Settles O8: `ADDR = 0` is a `VRAM` address, since a surface has at least one byte. -/
theorem resetMeetsInvariant : Obligations.ResetMeetsInvariant :=
  ⟨fun _ _ hc hv => inv_resetWith hc hv, inv_resetWith (by decide) rfl⟩

end Sys2Proof.Machine
end

section
/-! SUPPORT. The byte of a pixel pair (spec/20_memory.md rules R41, R43): which row and column pair an address stands
for, and which nibble of the byte shows each of the two pixels. -/

namespace Sys2Proof.Machine

/-- Row and column pair are the quotient and the remainder of the address by `RB` (R41). -/
theorem off_eq_iff_div_mod {c : Config} {x y a : Nat} (hx : x / 2 < c.rowBytes) :
    off c x y = a ↔ a / c.rowBytes = y ∧ a % c.rowBytes = x / 2 := by
  rw [Nat.div_mod_unique (Nat.zero_lt_of_lt hx), off, Nat.add_comm, Nat.mul_comm]
  exact (and_iff_left hx).symm

/-- An even column shows the high nibble of its byte (R43). -/
theorem pixel_of_even (c : Config) (vram : Memory) {x : Nat} (y : Nat) (hx : x % 2 = 0) :
    pixel c vram x y = (vram.read (off c x y)).extractLsb 7 4 := by
  simp only [pixel, nib, if_pos hx]

/-- An odd column shows the low nibble of its byte (R43). -/
theorem pixel_of_odd (c : Config) (vram : Memory) {x : Nat} (y : Nat) (hx : x % 2 = 1) :
    pixel c vram x y = (vram.read (off c x y)).extractLsb 3 0 := by
  simp only [pixel, (nib_eq_lo_iff x).2 hx]

end Sys2Proof.Machine
end

section
/-! CLAIMS. The statements of spec/20_memory.md. -/

namespace Sys2Proof.Machine

/-- Settles O34: an offset determines its row and its column pair, and a column pair is two columns. -/
theorem byteHoldsExactlyTwoPixels : Obligations.ByteHoldsExactlyTwoPixels := by
  intro c a x y hc ha
  have hwidth := rowBytes_twice hc
  have hrow : a / c.rowBytes < c.height := Nat.div_lt_of_lt_mul (surfaceBytes_eq c ▸ ha)
  have hcol : a % c.rowBytes < c.rowBytes :=
    Nat.mod_lt a (Nat.pos_of_mul_pos_right (surfaceBytes_eq c ▸ Nat.zero_lt_of_lt ha))
  constructor
  · rintro ⟨⟨hx, -⟩, hoff⟩
    obtain ⟨hy, hpair⟩ := (off_eq_iff_div_mod (by omega)).1 hoff
    exact ⟨hy.symm, by omega⟩
  · rintro ⟨rfl, hx⟩
    have hpair : a % c.rowBytes = x / 2 := by omega
    exact ⟨⟨by omega, hrow⟩, (off_eq_iff_div_mod (hpair ▸ hcol)).2 ⟨rfl, hpair⟩⟩

/-- Settles O36: the odd column of a pair has the even one's offset, and the two show the two nibbles of that byte. -/
theorem byteIsItsPixelPair : Obligations.ByteIsItsPixelPair := by
  intro c vram k y
  have hoff : off c (2 * k + 1) y = off c (2 * k) y := by rw [off_succ_column, Nat.mul_mod_right, Nat.add_zero]
  rw [pixel_of_even c vram y (Nat.mul_mod_right 2 k), pixel_of_odd c vram y (Nat.mul_add_mod 2 k 1), hoff]
  exact byte_split _

end Sys2Proof.Machine
end

section
/-! SUPPORT. The decoder as one rule over the mnemonics (spec/30_encoding.md R70): which words are a command of a
mnemonic, which command each of them is, and how the encoder and the decoder undo each other. -/

namespace Sys2Proof

/-! ### The format of each mnemonic -/

/-- The field widths of a mnemonic's format from bit 0 up, the opcode byte first (R63). -/
def Mnemonic.fieldWidths : Mnemonic → List Nat
  | .setaddr => [8, 16]
  | .setstep => [8, 1]
  | .wrbyte => [8, 8]
  | .rmw => [8, 8, 8]
  | .clear => [8, 8]
  | .setpixel => [8, 16, 16, 8]
  | .drawline => [8, 16, 16, 16, 16, 8]
  | .drawglyph => [8, 16, 16, 8, 8, 8, 8, 8, 8, 8, 8, 8, 8]
  | .drawstring => [8, 16, 16, 16, 8, 8]

/-- The bits a mnemonic's format uses; every bit above them is reserved (R66). -/
def Mnemonic.formatBits (m : Mnemonic) : Nat := m.fieldWidths.sum

/-- The command of a mnemonic whose operands stand in a word at the positions of its format (R65). -/
def Mnemonic.read (cw : CommandWord) : Mnemonic → Instr
  | .setaddr => .setaddr (cw.extractLsb 23 8)
  | .setstep => .setstep (cw.extractLsb 8 8)
  | .wrbyte => .wrbyte (cw.extractLsb 15 8)
  | .rmw => .rmw (cw.extractLsb 15 8) (cw.extractLsb 23 16)
  | .clear => .clear (cw.extractLsb 15 8)
  | .setpixel => .setpixel (cw.extractLsb 23 8) (cw.extractLsb 39 24) (cw.extractLsb 47 40)
  | .drawline =>
    .drawline (cw.extractLsb 23 8) (cw.extractLsb 39 24) (cw.extractLsb 55 40) (cw.extractLsb 71 56)
      (cw.extractLsb 79 72)
  | .drawglyph =>
    .drawglyph ⟨cw.extractLsb 63 56, cw.extractLsb 71 64, cw.extractLsb 79 72, cw.extractLsb 87 80,
        cw.extractLsb 95 88, cw.extractLsb 103 96, cw.extractLsb 111 104, cw.extractLsb 119 112⟩
      (cw.extractLsb 23 8) (cw.extractLsb 39 24) (cw.extractLsb 47 40) (cw.extractLsb 55 48)
  | .drawstring =>
    .drawstring (cw.extractLsb 23 8) (cw.extractLsb 39 24) (cw.extractLsb 55 40) (cw.extractLsb 63 56)
      (cw.extractLsb 71 64)

/-- A word is laid out as a mnemonic's format: its opcode byte, and no reserved bit set. -/
def Mnemonic.Formats (m : Mnemonic) (cw : CommandWord) : Prop :=
  cw.extractLsb 7 0 = m.opcode ∧ cw.toNat < 2 ^ m.formatBits

@[simp] theorem mnemonic_read (cw : CommandWord) (m : Mnemonic) : (m.read cw).mnemonic = m := by
  cases m <;> rfl

theorem opcode_injective {m m' : Mnemonic} (h : m.opcode = m'.opcode) : m = m' := by
  have hmem (m : Mnemonic) : m ∈ opcodeTable.map OpcodeRow.mnemonic := by cases m <;> decide
  exact List.inj_on_of_nodup_map (by decide) (hmem m) (hmem m') h

theorem fields_widths (i : Instr) : i.fields.map Prod.fst = i.mnemonic.fieldWidths := by
  cases i <;> rfl

/-! ### The decoder -/

/-- Step (2) of R70: the bits of a word from `n` up are all 0 when its number is below `2 ^ n`. -/
theorem checkReserved_eq (cw : CommandWord) (n : Nat) (i : Instr) (hn : n < 128) :
    checkReserved (cw.extractLsb 127 n) i =
      if cw.toNat < 2 ^ n then .command i else .illegal (.reservedBit i.mnemonic) := by
  have htop : cw.toNat / 2 ^ n < 2 ^ (127 - n + 1) := by
    rw [Nat.div_lt_iff_lt_mul (Nat.two_pow_pos n), ← Nat.pow_add, show 127 - n + 1 + n = 128 by omega]
    exact cw.isLt
  have hzero : cw.extractLsb 127 n = 0#_ ↔ cw.toNat < 2 ^ n := by
    rw [← BitVec.toNat_inj, BitVec.extractLsb_toNat, Nat.shiftRight_eq_div_pow, Nat.mod_eq_of_lt htop,
      BitVec.toNat_ofNat, Nat.zero_mod, Nat.div_eq_zero_iff_lt (Nat.two_pow_pos n)]
  simp only [checkReserved, hzero]

/-- Step (1) of R70 on a defined opcode: only the reserved bits are left to check. -/
theorem decode_of_opcode {cw : CommandWord} {m : Mnemonic} (h : cw.extractLsb 7 0 = m.opcode) :
    decode cw =
      if cw.toNat < 2 ^ m.formatBits then .command (m.read cw) else .illegal (.reservedBit m) := by
  cases m <;> simp [decode, h, Mnemonic.opcode, checkReserved_eq, Mnemonic.read, Mnemonic.formatBits,
    Mnemonic.fieldWidths, Instr.mnemonic]

/-- Step (1) of R70 on any other byte. -/
theorem decode_of_undefined {cw : CommandWord} (h : ∀ m : Mnemonic, cw.extractLsb 7 0 ≠ m.opcode) :
    decode cw = .illegal (.undefinedOpcode (cw.extractLsb 7 0)) := by
  unfold decode
  exact (if_neg (h .setaddr)).trans <| (if_neg (h .setstep)).trans <| (if_neg (h .wrbyte)).trans <|
    (if_neg (h .rmw)).trans <| (if_neg (h .clear)).trans <| (if_neg (h .setpixel)).trans <|
    (if_neg (h .drawline)).trans <| (if_neg (h .drawglyph)).trans <| if_neg (h .drawstring)

theorem decode_of_formats {cw : CommandWord} {m : Mnemonic} (h : m.Formats cw) :
    decode cw = .command (m.read cw) := by
  rw [decode_of_opcode h.1, if_pos h.2]

/-- A word that no mnemonic's format lays out is no command. -/
theorem decode_of_not_formats {cw : CommandWord} (h : ∀ m : Mnemonic, ¬ m.Formats cw) :
    ∃ why, decode cw = .illegal why := by
  by_cases hop : ∃ m : Mnemonic, cw.extractLsb 7 0 = m.opcode
  · obtain ⟨m, hm⟩ := hop
    exact ⟨_, by rw [decode_of_opcode hm, if_neg fun hlt => h m ⟨hm, hlt⟩]⟩
  · exact ⟨_, decode_of_undefined (not_exists.1 hop)⟩

/-- All that a word which decodes to a command can be. -/
theorem decode_eq_command_iff {cw : CommandWord} {i : Instr} :
    decode cw = .command i ↔ i.mnemonic.Formats cw ∧ i.mnemonic.read cw = i := by
  constructor
  · intro hd
    by_cases hf : ∃ m : Mnemonic, m.Formats cw
    · obtain ⟨m, hm⟩ := hf
      obtain rfl : m.read cw = i := Decoded.command.inj ((decode_of_formats hm).symm.trans hd)
      simpa using hm
    · obtain ⟨why, hi⟩ := decode_of_not_formats (not_exists.1 hf)
      cases hi.symm.trans hd
  · rintro ⟨hf, hi⟩
    rw [decode_of_formats hf, hi]

/-! ### Decoding after encoding -/

/-- Fields that fit their widths pack into the sum of the widths. -/
theorem pack_lt (fields : List (Nat × Nat)) (h : ∀ f ∈ fields, f.2 < 2 ^ f.1) :
    pack fields < 2 ^ (fields.map Prod.fst).sum := by
  induction fields with
  | nil => exact Nat.one_pos
  | cons f rest ih =>
    obtain ⟨w, v⟩ := f
    obtain ⟨hv, hrest⟩ : v < 2 ^ w ∧ ∀ f ∈ rest, f.2 < 2 ^ f.1 := List.forall_mem_cons.1 h
    calc v + 2 ^ w * pack rest
      _ < 2 ^ w * (pack rest + 1) := by rw [Nat.mul_add_one]; omega
      _ ≤ 2 ^ w * 2 ^ (rest.map Prod.fst).sum := Nat.mul_le_mul_left _ (ih hrest)
      _ = 2 ^ (w + (rest.map Prod.fst).sum) := (Nat.pow_add ..).symm

/-- Every operand of a command fits its field (R65). -/
theorem fields_fit (i : Instr) : ∀ f ∈ i.fields, f.2 < 2 ^ f.1 := by
  cases i <;> simp only [Instr.fields, List.forall_mem_cons, BitVec.isLt, List.not_mem_nil, false_implies,
    implies_true, and_self]

/-- The encoder sets no reserved bit, and the opcode byte is the mnemonic's. -/
theorem formats_encode (i : Instr) : i.mnemonic.Formats (encode i) := by
  refine ⟨encode_opcode i, Nat.lt_of_le_of_lt (Nat.mod_le _ _) ?_⟩
  rw [Mnemonic.formatBits, ← fields_widths]
  exact pack_lt _ (fields_fit i)

/-- Each operand is read where the encoder laid it down (R63): past the fields below it, at the head of what is left. -/
theorem read_encode (i : Instr) : i.mnemonic.read (encode i) = i := by
  cases i <;>
    simp [Instr.mnemonic, Mnemonic.read, BitVec.extractLsb, encode_slice, Instr.fields, above_skip, above_head]

/-! ### Encoding after decoding -/

/-- The slices of the given widths that a word holds from bit `s` up, as fields. -/
def slices (cw : CommandWord) : Nat → List Nat → List (Nat × Nat)
  | _, [] => []
  | s, w :: ws => (w, (cw.extractLsb' s w).toNat) :: slices cw (s + w) ws

/-- Packing adjoining slices of a word gives the stretch of the word that they cover. -/
theorem pack_slices (cw : CommandWord) (s : Nat) (ws : List Nat) :
    pack (slices cw s ws) = cw.toNat / 2 ^ s % 2 ^ ws.sum := by
  induction ws generalizing s with
  | nil => simp [slices, pack, Nat.mod_one]
  | cons w ws ih =>
    rw [slices, pack, ih, BitVec.extractLsb'_toNat, Nat.shiftRight_eq_div_pow, List.sum_cons, Nat.pow_add 2 s w,
      ← Nat.div_div_eq_div_mul, Nat.pow_add 2 w, Nat.mod_mul]

/-- The fields of the command a word holds are the slices of the word. -/
theorem fields_read {cw : CommandWord} {m : Mnemonic} (h : cw.extractLsb 7 0 = m.opcode) :
    (m.read cw).fields = slices cw 0 m.fieldWidths := by
  cases m <;> simp only [Mnemonic.read, Instr.fields, ← h] <;> rfl

/-- A word in a mnemonic's format is the encoding of the command it holds. -/
theorem encode_read {cw : CommandWord} {m : Mnemonic} (h : m.Formats cw) : encode (m.read cw) = cw := by
  apply BitVec.eq_of_toNat_eq
  rw [encode, fields_read h.1, pack_slices, Nat.pow_zero, Nat.div_one, BitVec.toNat_ofNat, ← Mnemonic.formatBits,
    Nat.mod_eq_of_lt h.2, Nat.mod_eq_of_lt cw.isLt]

end Sys2Proof
end

section
/-! SUPPORT. The rows of the opcode table (spec/30_encoding.md R70): each is the format of its mnemonic. -/

namespace Sys2Proof

/-- The row of a mnemonic: its mask is the opcode byte and the reserved bits of its format. -/
def Mnemonic.row (m : Mnemonic) : OpcodeRow :=
  ⟨m, (BitVec.allOnes 8).setWidth 128 ||| BitVec.allOnes 128 <<< m.formatBits, m.opcode.setWidth 128⟩

/-- The rows of the table are the rows of the nine mnemonics. -/
theorem mem_opcodeTable {row : OpcodeRow} : row ∈ opcodeTable ↔ ∃ m : Mnemonic, row = m.row := by
  constructor
  · have hrows : ∀ r ∈ opcodeTable, r = r.mnemonic.row := by decide
    exact fun h => ⟨row.mnemonic, hrows row h⟩
  · rintro ⟨m, rfl⟩
    cases m <;> decide

theorem eight_le_formatBits (m : Mnemonic) : 8 ≤ m.formatBits := by
  cases m <;> decide

/-- A row's mask shows the bits of the opcode byte and the reserved bits. -/
theorem getLsbD_mask (m : Mnemonic) {k : Nat} (hk : k < 128) :
    m.row.mask.getLsbD k = (decide (k < 8) || decide (m.formatBits ≤ k)) := by
  have hshift : k - m.formatBits < 128 := by omega
  rw [Mnemonic.row, BitVec.getLsbD_or, BitVec.getLsbD_setWidth, BitVec.getLsbD_allOnes, BitVec.getLsbD_shiftLeft,
    BitVec.getLsbD_allOnes]
  simp only [hk, hshift, decide_true, Bool.true_and, Bool.and_true, ← decide_not, Nat.not_lt]

/-- A row's pattern is the opcode byte with zeros above it. -/
theorem getLsbD_pattern (m : Mnemonic) {k : Nat} (hk : k < 128) :
    m.row.pattern.getLsbD k = m.opcode.getLsbD k := by
  simp [Mnemonic.row, hk]

/-- A word's number is below `2 ^ n` when no bit from `n` up is set. -/
theorem toNat_lt_two_pow_iff {cw : CommandWord} {n : Nat} :
    cw.toNat < 2 ^ n ↔ ∀ k, n ≤ k → cw.getLsbD k = false :=
  ⟨fun h k hk => Nat.testBit_lt_two_pow (Nat.lt_of_lt_of_le h (Nat.pow_le_pow_right (by decide) hk)),
    Nat.lt_pow_two_of_testBit _⟩

/-- A word matches a mnemonic's row when it has the bits of the opcode where the mask shows. -/
theorem matches_row_iff_getLsbD (m : Mnemonic) (cw : CommandWord) :
    m.row.matches cw = true ↔ ∀ k, k < 128 →
      (cw.getLsbD k && (decide (k < 8) || decide (m.formatBits ≤ k))) = m.opcode.getLsbD k := by
  rw [OpcodeRow.matches, beq_iff_eq, BitVec.eq_of_getLsbD_eq_iff]
  exact forall₂_congr fun k hk => by rw [BitVec.getLsbD_and, getLsbD_mask m hk, getLsbD_pattern m hk]

/-- A word is laid out as a format when it has the bits of the opcode, and zeros at the reserved bits. -/
theorem formats_iff_getLsbD (m : Mnemonic) (cw : CommandWord) :
    m.Formats cw ↔
      (∀ k, k < 8 → cw.getLsbD k = m.opcode.getLsbD k) ∧ ∀ k, m.formatBits ≤ k → cw.getLsbD k = false := by
  rw [Mnemonic.Formats, toNat_lt_two_pow_iff, BitVec.eq_of_getLsbD_eq_iff]
  simp +contextual

/-- The table's row of a mnemonic matches exactly the words laid out as its format (R70). -/
theorem matches_row (m : Mnemonic) (cw : CommandWord) : m.row.matches cw = true ↔ m.Formats cw := by
  have hopcode (k : Nat) (hk : 8 ≤ k) : m.opcode.getLsbD k = false := BitVec.getLsbD_of_ge _ k hk
  have h8 := eight_le_formatBits m
  rw [formats_iff_getLsbD, matches_row_iff_getLsbD]
  constructor
  · refine fun h => ⟨fun k hk => ?_, fun k hk => ?_⟩
    · simpa [hk] using h k (by omega)
    · by_cases hlt : k < 128
      · simpa [hk, hopcode k (by omega)] using h k hlt
      · exact BitVec.getLsbD_of_ge cw k (by omega)
  · rintro ⟨hlow, hhigh⟩ k -
    by_cases hk : k < 8
    · simp [hk, hlow k hk]
    · by_cases hn : m.formatBits ≤ k
      · simp [hhigh k hn, hopcode k (by omega)]
      · simp [hk, hn, hopcode k (by omega)]

end Sys2Proof
end

section
/-! SUPPORT. The bytes of a command word (spec/30_encoding.md R60). -/

namespace Sys2Proof

theorem bytesValue_concat (bs : List Byte) (b : Byte) :
    bytesValue (bs ++ [b]) = bytesValue bs + 256 ^ bs.length * b.toNat := by
  induction bs with
  | nil => simp [bytesValue]
  | cons c cs ih =>
    rw [List.cons_append, bytesValue, ih, bytesValue, List.length_cons]
    ring

/-- The first `n` bytes of a word are the word's low `8 * n` bits (R60). -/
theorem bytesValue_wordBytes (cw : CommandWord) (n : Nat) :
    bytesValue ((List.range n).map (wordByte cw)) = cw.toNat % 256 ^ n := by
  induction n with
  | zero => simp [bytesValue, Nat.mod_one]
  | succ n ih =>
    have hbyte : (wordByte cw n).toNat = cw.toNat / 256 ^ n % 256 := by
      rw [wordByte, BitVec.extractLsb'_toNat, Nat.shiftRight_eq_div_pow, Nat.pow_mul]
    rw [List.range_succ, List.map_append, List.map_singleton, bytesValue_concat, ih, hbyte, List.length_map,
      List.length_range, Nat.pow_succ, Nat.mod_mul]

/-- A word in whose byte `k` only the low `l` bits can be set leaves that byte below `2 ^ l`. -/
theorem wordByte_lt {cw : CommandWord} {k l : Nat} (h : cw.toNat < 2 ^ (l + 8 * k)) :
    (wordByte cw k).toNat < 2 ^ l := by
  rw [wordByte, BitVec.extractLsb'_toNat, Nat.shiftRight_eq_div_pow]
  refine Nat.lt_of_le_of_lt (Nat.mod_le _ _) ((Nat.div_lt_iff_lt_mul (Nat.two_pow_pos _)).2 ?_)
  rwa [← Nat.pow_add]

end Sys2Proof
end

section
/-! SUPPORT. The source form of a command (spec/30_encoding.md R68): every source command that fits is one. -/

namespace Sys2Proof

theorem operandsFit_nil {ns : List Nat} : operandsFit [] ns = true ↔ ns = [] := by
  cases ns <;> simp [operandsFit]

/-- Numbers fit when the first is the value of a bit vector of its field's width and the others fit. -/
theorem operandsFit_cons {w : Nat} {ws ns : List Nat} :
    operandsFit (w :: ws) ns = true ↔
      ∃ (v : BitVec w) (rest : List Nat), ns = v.toNat :: rest ∧ operandsFit ws rest = true := by
  constructor
  · intro h
    cases ns with
    | nil => cases h
    | cons n rest =>
      obtain ⟨hn, hrest⟩ : n < 2 ^ w ∧ operandsFit ws rest = true := by simpa [operandsFit] using h
      exact ⟨BitVec.ofNatLT n hn, rest, rfl, hrest⟩
  · rintro ⟨v, rest, rfl, h⟩
    exact Laws.Disassembles.fits_cons v ws rest h

namespace Assembler

/-- The operands of a source form fit their fields. -/
theorem disassemble_wf (i : Instr) : (disassemble i).wf = true := by
  have h : Laws.Disassembles.Statement i := by
    cases i with
    | setaddr a => exact Laws.Disassembles.setaddr a
    | setstep n => exact Laws.Disassembles.setstep n
    | wrbyte v => exact Laws.Disassembles.wrbyte v
    | rmw m v => exact Laws.Disassembles.rmw m v
    | clear color => exact Laws.Disassembles.clear color
    | setpixel x y color => exact Laws.Disassembles.setpixel x y color
    | drawline x0 y0 x1 y1 color => exact Laws.Disassembles.drawline x0 y0 x1 y1 color
    | drawglyph g x y fg bg => exact Laws.Disassembles.drawglyph g x y fg bg
    | drawstring p x y fg bg => exact Laws.Disassembles.drawstring p x y fg bg
  obtain ⟨-, hwf, -⟩ := h
  exact hwf

theorem commandOf_disassemble (i : Instr) : commandOf (disassemble i) = some i := by
  rw [commandOf, if_pos (disassemble_wf i)]
  cases i <;> simp [disassemble]

theorem commandOf_of_not_wf {c : SourceCommand} (h : c.wf = false) : commandOf c = none := by
  simp [commandOf, h]

/-- A source command whose operands fit is the source form of a command. -/
theorem exists_disassemble_eq {c : SourceCommand} (h : c.wf = true) : ∃ i, disassemble i = c := by
  obtain ⟨m, ns⟩ := c
  cases m <;> simp only [SourceCommand.wf, Mnemonic.operandWidths, operandsFit_cons, operandsFit_nil] at h
  case setaddr => obtain ⟨a, -, rfl, rfl⟩ := h; exact ⟨.setaddr a, rfl⟩
  case setstep => obtain ⟨n, -, rfl, rfl⟩ := h; exact ⟨.setstep n, rfl⟩
  case wrbyte => obtain ⟨v, -, rfl, rfl⟩ := h; exact ⟨.wrbyte v, rfl⟩
  case rmw => obtain ⟨m, -, rfl, v, -, rfl, rfl⟩ := h; exact ⟨.rmw m v, rfl⟩
  case clear => obtain ⟨color, -, rfl, rfl⟩ := h; exact ⟨.clear color, rfl⟩
  case setpixel => obtain ⟨x, -, rfl, y, -, rfl, color, -, rfl, rfl⟩ := h; exact ⟨.setpixel x y color, rfl⟩
  case drawline =>
    obtain ⟨x0, -, rfl, y0, -, rfl, x1, -, rfl, y1, -, rfl, color, -, rfl, rfl⟩ := h
    exact ⟨.drawline x0 y0 x1 y1 color, rfl⟩
  case drawglyph =>
    obtain ⟨g0, -, rfl, g1, -, rfl, g2, -, rfl, g3, -, rfl, g4, -, rfl, g5, -, rfl, g6, -, rfl, g7, -, rfl,
      x, -, rfl, y, -, rfl, fg, -, rfl, bg, -, rfl, rfl⟩ := h
    exact ⟨.drawglyph ⟨g0, g1, g2, g3, g4, g5, g6, g7⟩ x y fg bg, rfl⟩
  case drawstring =>
    obtain ⟨p, -, rfl, x, -, rfl, y, -, rfl, fg, -, rfl, bg, -, rfl, rfl⟩ := h
    exact ⟨.drawstring p x y fg bg, rfl⟩

end Assembler

end Sys2Proof
end

section
/-! CLAIMS. The statements of spec/30_encoding.md. -/

namespace Sys2Proof

open Machine

/-- Settles O1: the encoder lays a command out in its mnemonic's format, and each operand is read back where it lies. -/
theorem decodeOfEncodeIsTheCommand : Obligations.DecodeOfEncodeIsTheCommand := fun i =>
  decode_eq_command_iff.2 ⟨formats_encode i, read_encode i⟩

/-- Settles O2: the fields of the format and its reserved bits, which are 0, are all the bits of the word. -/
theorem encodeOfDecodedWordIsTheWord : Obligations.EncodeOfDecodedWordIsTheWord := by
  intro cw i hd
  obtain ⟨hf, hi⟩ := decode_eq_command_iff.1 hd
  rw [← hi]
  exact encode_read hf

/-- Settles O3: matching a mnemonic's row is being laid out as its format, and only one format has a word's opcode. -/
theorem decodeAgreesWithOpcodeTable : Obligations.DecodeAgreesWithOpcodeTable := by
  intro cw
  refine ⟨fun m => ⟨?_, ?_⟩, ?_, ?_, ?_⟩
  · rintro ⟨i, hd, rfl⟩
    exact ⟨i.mnemonic.row, mem_opcodeTable.2 ⟨_, rfl⟩, rfl, (matches_row _ cw).2 (decode_eq_command_iff.1 hd).1⟩
  · rintro ⟨row, hmem, rfl, hmatch⟩
    obtain ⟨m, rfl⟩ := mem_opcodeTable.1 hmem
    exact ⟨m.read cw, decode_of_formats ((matches_row m cw).1 hmatch), mnemonic_read cw m⟩
  · intro row hmem row' hmem' hmatch hmatch'
    obtain ⟨m, rfl⟩ := mem_opcodeTable.1 hmem
    obtain ⟨m', rfl⟩ := mem_opcodeTable.1 hmem'
    have hf := (matches_row m cw).1 hmatch
    have hf' := (matches_row m' cw).1 hmatch'
    rw [opcode_injective (hf.1.symm.trans hf'.1)]
  · intro hnone
    refine decode_of_not_formats fun m hf => ?_
    exact Bool.false_ne_true ((hnone _ (mem_opcodeTable.2 ⟨m, rfl⟩)).symm.trans ((matches_row m cw).2 hf))
  · rintro ⟨why, hd⟩ row hmem
    obtain ⟨m, rfl⟩ := mem_opcodeTable.1 hmem
    refine Bool.eq_false_of_not_eq_true fun hmatch => ?_
    cases hd.symm.trans (decode_of_formats ((matches_row m cw).1 hmatch))

/-- Settles O4: the sixteen bytes are the 128 bits of the word. -/
theorem bytesOfAWordDecodeAsTheWord : Obligations.BytesOfAWordDecodeAsTheWord := by
  refine ⟨fun cw => ?_, fun bytes hlen => ⟨_, if_neg hlen⟩⟩
  have hlen : (wordBytes cw).length = 16 := rfl
  have hvalue : bytesValue (wordBytes cw) = cw.toNat :=
    (bytesValue_wordBytes cw 16).trans (Nat.mod_eq_of_lt cw.isLt)
  rw [decodeBytes, if_pos hlen, hvalue, BitVec.ofNat_toNat, BitVec.setWidth_eq]

/-- Settles O6: the source forms of commands are exactly the source commands whose operands fit. -/
theorem assemblerBuildsExactlyTheFittingCommands : Obligations.AssemblerBuildsExactlyTheFittingCommands := by
  refine ⟨Assembler.commandOf_disassemble, fun c hc => Assembler.commandOf_of_not_wf hc, fun c hc => ?_⟩
  obtain ⟨i, rfl⟩ := Assembler.exists_disassemble_eq hc
  exact ⟨i, Assembler.commandOf_disassemble i, rfl⟩

/-- Settles O5: the encoder, the bytes and the assembler are evaluated on the nine rows; that the decoder reads the
command back is O1. -/
theorem workedEncodings : Obligations.WorkedEncodings := by
  intro row hrow
  have hrun : encode row.2.2.1 = row.2.1 ∧ wordBytes row.2.1 = row.2.2.2 ∧
      Assembler.assembleLine row.1 = .command row.2.1 := by
    revert row
    decide
  obtain ⟨hencode, hbytes, htext⟩ := hrun
  exact ⟨hencode, hencode ▸ decodeOfEncodeIsTheCommand _, hbytes, htext⟩

/-- Settles O11: with a configuration of the hardware and a word at the port, what the word decodes to is what runs. -/
theorem stepRunsTheDecodedCommand : Obligations.StepRunsTheDecodedCommand := fun _ _ _ _ hc hw hd =>
  step_command hc hw hd

/-- Settles O12: a word that matches no row decodes to no command. -/
theorem illegalWordRaisesIllegalCommand : Obligations.IllegalWordRaisesIllegalCommand := by
  intro s w rest hc hw hnone
  obtain ⟨-, -, hillegal⟩ := decodeAgreesWithOpcodeTable w
  obtain ⟨why, hd⟩ := hillegal.1 hnone
  exact step_illegal hc hw hd

/-- Settles O13: SETSTEP's format ends at bit 8 and DRAWGLYPH's at bit 119, so what is named is a reserved bit. -/
theorem namedIllegalWordsAreIllegal : Obligations.NamedIllegalWordsAreIllegal := by
  intro w
  refine ⟨fun hnone => ?_, fun hop hbyte => ?_, fun hop hbyte => ?_⟩
  · refine decode_of_undefined fun m hm => hnone ?_
    rw [show wordByte w 0 = m.opcode from hm]
    cases m <;> decide
  · have hbits : ¬ w.toNat < 2 ^ Mnemonic.setstep.formatBits := fun hlt =>
      Nat.not_lt.2 hbyte (wordByte_lt (l := 1) hlt)
    rw [decode_of_opcode (m := .setstep) hop, if_neg hbits]
  · have hbits : ¬ w.toNat < 2 ^ Mnemonic.drawglyph.formatBits := fun hlt =>
      hbyte (BitVec.eq_of_toNat_eq (Nat.lt_one_iff.1 (wordByte_lt (l := 0) hlt)))
    rw [decode_of_opcode (m := .drawglyph) hop, if_neg hbits]

end Sys2Proof
end

section
/-! SUPPORT. The replay of the port events (spec/40_pixelport.md rule R80): each micro-operation under its precondition
is the replay of the one event it logs, and every effect part meets those preconditions, because its checks passed. -/

namespace Sys2Proof.Machine

/-! ### Replays one after another -/

theorem replay_append {size : Nat} {evs evs' : List PortEvent} {p q : PortView} (h : p.replay size evs = some q) :
    p.replay size (evs ++ evs') = q.replay size evs' := by
  induction evs generalizing p with
  | nil =>
    cases h
    rfl
  | cons e rest ih =>
    obtain ⟨r, hone, hrest⟩ := Option.bind_eq_some_iff.1 h
    rw [List.cons_append, PortView.replay, hone, Option.bind_some, ih hrest]

/-- From `s` to `t` the parameters are kept, and the port changes by the replay of the events appended to `TRACE`. -/
structure Replays (s t : State) : Prop where
  cfg : t.cfg = s.cfg
  replay : ∃ evs, t.events = s.events ++ evs ∧ s.port.replay s.cfg.surfaceBytes evs = some t.port

theorem Replays.refl (s : State) : Replays s s := ⟨rfl, [], (List.append_nil _).symm, rfl⟩

theorem Replays.trans {s t u : State} (h : Replays s t) (h' : Replays t u) : Replays s u := by
  obtain ⟨hcfg, evs, hevents, hreplay⟩ := h
  obtain ⟨hcfg', evs', hevents', hreplay'⟩ := h'
  refine ⟨hcfg'.trans hcfg, evs ++ evs', by rw [hevents', hevents, List.append_assoc], ?_⟩
  rw [replay_append hreplay, ← hcfg, hreplay']

/-- One event logged, and the port as its replay leaves it. -/
theorem Replays.of_event {s t : State} {e : PortEvent} (hcfg : t.cfg = s.cfg) (htrace : t.trace = e :: s.trace)
    (hreplay : s.port.replayOne s.cfg.surfaceBytes e = some t.port) : Replays s t :=
  ⟨hcfg, [e], events_of_trace_cons e s t htrace, Option.bind_eq_some_iff.2 ⟨t.port, hreplay, rfl⟩⟩

/-- A loop is a replay if each of its bodies is one in the state the bodies before it leave. -/
theorem replays_forUp {P : Nat → State → Prop} {body : Nat → State → State} {a n : Nat} {s : State} (h0 : P a s)
    (hbody : ∀ i t, i < a + n → t.cfg = s.cfg → P i t → Replays t (body i t) ∧ P (i + 1) (body i t)) :
    Replays s (forUp body a n s) :=
  have hloop := forUp_invariant (fun i t => Replays s t ∧ P i t) body a n s ⟨.refl s, h0⟩
    fun i t _ hi ⟨ht, hP⟩ =>
      have ⟨hone, hnext⟩ := hbody i t hi ht.cfg hP
      ⟨ht.trans hone, hnext⟩
  hloop.1

/-- A loop whose bodies are replays from every state. -/
theorem replays_forUp_of_forall {body : Nat → State → State} {a n : Nat} {s : State}
    (hbody : ∀ i t, i < a + n → t.cfg = s.cfg → Replays t (body i t)) : Replays s (forUp body a n s) :=
  replays_forUp (P := fun _ _ => True) trivial fun i t hi hcfg _ => ⟨hbody i t hi hcfg, trivial⟩

/-! ### The micro-operations under their preconditions -/

theorem replays_portSetaddr {s : State} (hc : s.cfg.wf = true) {a : Nat} (ha : a < s.cfg.surfaceBytes) :
    Replays s (portSetaddr a s) := by
  obtain ⟨-, -, -, -, -, hsize⟩ := cfg_bounds hc
  refine .of_event rfl rfl ?_
  simp [PortView.replayOne, State.port, ha, Nat.mod_eq_of_lt (show a < 65536 by omega)]

theorem replays_portSetstep (n : BitVec 1) (s : State) : Replays s (portSetstep n s) := .of_event rfl rfl rfl

theorem replays_portWrite {s : State} (hc : s.cfg.wf = true) (haddr : s.addr.toNat < s.cfg.surfaceBytes) (v : Byte) :
    Replays s (portWrite v s) := by
  refine .of_event rfl rfl ?_
  rw [State.port, State.port, portWrite_addr_toNat hc haddr]
  simp [PortView.replayOne, haddr]

theorem replays_portRmw {s : State} (haddr : s.addr.toNat < s.cfg.surfaceBytes) (hstep : s.stepReg = 0#1)
    (m v : Byte) : Replays s (portRmw m v s) :=
  .of_event rfl rfl (if_pos ⟨rfl, haddr, hstep⟩)

theorem replays_portAdv {s : State} (hc : s.cfg.wf = true) {d : Nat} (hd : s.addr.toNat + d < s.cfg.surfaceBytes) :
    Replays s (portAdv d s) := by
  refine .of_event rfl rfl ?_
  rw [State.port, State.port, portAdv_addr_toNat hc hd]
  exact if_pos hd

/-- A write with `STEP = 1` steps to the next address. -/
theorem stepped_portWrite_addr {s : State} (hc : s.cfg.wf = true) (hstep : s.stepReg = 1#1)
    (haddr : s.addr.toNat < s.cfg.surfaceBytes) (v : Byte) : (portWrite v s).addr.toNat = s.addr.toNat + 1 := by
  rw [portWrite_addr_toNat hc haddr, hstep]
  rfl

/-! ### The effect parts -/

/-- Programming the port, the prologue of every composite effect part. -/
theorem replays_program {s : State} (hc : s.cfg.wf = true) {a : Nat} (ha : a < s.cfg.surfaceBytes) (n : BitVec 1) :
    Replays s (portSetstep n (portSetaddr a s)) :=
  (replays_portSetaddr hc ha).trans (replays_portSetstep n _)

/-- One pixel in range (R95). -/
theorem replays_pixelEffect {s : State} (hc : s.cfg.wf = true) {x y : Nat} (hr : inRange s.cfg x y) (color : Byte) :
    Replays s (pixelEffect x y color s) := by
  have hoff := off_lt hc hr
  have haddr := (draws_program s (off_lt_two_pow hc hr)).addr
  exact (replays_program hc hoff 0#1).trans (replays_portRmw (haddr.trans_lt hoff) rfl _ _)

/-- A glyph whose box is in range (R114). -/
theorem replays_glyphBody {s : State} (hc : s.cfg.wf = true) (g : Glyph) {x y : Nat} (hr : boxInRange s.cfg x y)
    (fg bg : Byte) : Replays s (glyphBody g x y fg bg s) := by
  obtain ⟨hx, hy⟩ := hr
  refine replays_forUp_of_forall fun r t hrow hcfg => replays_forUp_of_forall fun k u hcol hcfg' => ?_
  have hsame : u.cfg = s.cfg := hcfg'.trans hcfg
  refine replays_pixelEffect (hsame ▸ hc) ?_ _
  rw [hsame]
  exact ⟨by omega, by omega⟩

/-- The characters of a string whose boxes are in range (R113). -/
theorem replays_stringChars {s : State} (hc : s.cfg.wf = true) {p x y n : Nat}
    (hbox : ∀ i, i < n → boxInRange s.cfg (x + 8 * i) y) (fg bg : Byte) :
    Replays s (forUp (stringChar p x y fg bg) 0 n s) :=
  replays_forUp_of_forall fun i _ hi hcfg => replays_glyphBody (hcfg ▸ hc) _ (hcfg ▸ hbox i (by omega)) fg bg

/-- The read-modify-write of a line's pixel, then the advance to the next one. -/
theorem replays_portRmw_portAdv {s : State} (hc : s.cfg.wf = true) {d : Nat}
    (hd : s.addr.toNat + d < s.cfg.surfaceBytes) (hstep : s.stepReg = 0#1) (m v : Byte) :
    Replays s (portAdv d (portRmw m v s)) :=
  (replays_portRmw (by omega) hstep m v).trans (replays_portAdv (s := portRmw m v s) hc hd)

theorem replays_verticalRow {s : State} (hc : s.cfg.wf = true) {x0 y y1 : Nat} (hr : inRange s.cfg x0 y1)
    (hy : y ≤ y1) (hstep : s.stepReg = 0#1) (haddr : s.addr.toNat = off s.cfg x0 y) (m v : Byte) :
    Replays s (verticalRow m v y1 y s) := by
  unfold verticalRow
  split
  · next hlt =>
    have hnext := off_lt hc (x := x0) (y := y + 1) ⟨hr.1, Nat.lt_of_le_of_lt hlt hr.2⟩
    exact replays_portRmw_portAdv hc (by rwa [haddr, ← off_succ_row]) hstep m v
  · exact replays_portRmw (haddr ▸ off_lt hc ⟨hr.1, hy.trans_lt hr.2⟩) hstep m v

/-- A vertical line whose last point is in range (R102): each row but the last leaves `ADDR` at the next one. -/
theorem replays_verticalPath {s : State} (hc : s.cfg.wf = true) {x0 y0 y1 : Nat} (hr : inRange s.cfg x0 y1)
    (hy : y0 ≤ y1) (color : Byte) : Replays s (verticalPath x0 y0 y1 color s) := by
  have hfirst : inRange s.cfg x0 y0 := ⟨hr.1, hy.trans_lt hr.2⟩
  refine (replays_program hc (off_lt hc hfirst) 0#1).trans (replays_forUp
    (P := fun y t => t.stepReg = 0#1 ∧ (y ≤ y1 → t.addr.toNat = off s.cfg x0 y))
    ⟨rfl, fun _ => (draws_program s (off_lt_two_pow hc hfirst)).addr⟩ ?_)
  rintro y t hlt hcfg ⟨hstep, haddr⟩
  have hle : y ≤ y1 := by omega
  replace hcfg : t.cfg = s.cfg := hcfg
  replace haddr := haddr hle
  rw [← hcfg] at hc hr haddr ⊢
  have hrow := draws_verticalRow hc hr hstep haddr color
  exact ⟨replays_verticalRow hc hr hle hstep haddr _ _, hrow.step, fun hnext => hrow.addr.trans (if_pos hnext)⟩

theorem replays_horizontalPixel {s : State} (hc : s.cfg.wf = true) {x x1 y0 : Nat} (hr : inRange s.cfg x1 y0)
    (hx : x ≤ x1) (hstep : s.stepReg = 0#1) (haddr : s.addr.toNat = off s.cfg x y0) (color : Byte) :
    Replays s (horizontalPixel color x1 x s) := by
  unfold horizontalPixel
  split
  · next hadv =>
    obtain ⟨hlt, hodd⟩ := hadv
    have hnext := off_lt hc (x := x + 1) (y := y0) ⟨Nat.lt_of_le_of_lt hlt hr.1, hr.2⟩
    rw [off_succ_column, (nib_eq_lo_iff x).1 hodd, ← haddr] at hnext
    exact replays_portRmw_portAdv hc hnext hstep _ _
  · exact replays_portRmw (haddr ▸ off_lt hc ⟨hx.trans_lt hr.1, hr.2⟩) hstep _ _

/-- A horizontal line whose last point is in range (R103): each pixel but the last leaves `ADDR` at the next one. -/
theorem replays_horizontalPath {s : State} (hc : s.cfg.wf = true) {x0 x1 y0 : Nat} (hr : inRange s.cfg x1 y0)
    (hx : x0 ≤ x1) (color : Byte) : Replays s (horizontalPath x0 x1 y0 color s) := by
  have hfirst : inRange s.cfg x0 y0 := ⟨hx.trans_lt hr.1, hr.2⟩
  refine (replays_program hc (off_lt hc hfirst) 0#1).trans (replays_forUp
    (P := fun x t => t.stepReg = 0#1 ∧ (x ≤ x1 → t.addr.toNat = off s.cfg x y0))
    ⟨rfl, fun _ => (draws_program s (off_lt_two_pow hc hfirst)).addr⟩ ?_)
  rintro x t hlt hcfg ⟨hstep, haddr⟩
  have hle : x ≤ x1 := by omega
  replace hcfg : t.cfg = s.cfg := hcfg
  replace haddr := haddr hle
  rw [← hcfg] at hc hr haddr ⊢
  have hpixel := draws_horizontalPixel hc hr hstep haddr color
  exact ⟨replays_horizontalPixel hc hr hle hstep haddr color, hpixel.step,
    fun hnext => hpixel.addr.trans (if_pos hnext)⟩

/-- A supported line whose last point is in range (R100, R101). -/
theorem replays_lineEffect {s : State} (hc : s.cfg.wf = true) {x0 y0 x1 y1 : Nat} (hr : inRange s.cfg x1 y1)
    (hline : supportedLine x0 y0 x1 y1) (color : Byte) : Replays s (lineEffect x0 y0 x1 y1 color s) := by
  unfold lineEffect
  split
  · next hx =>
    subst hx
    exact replays_verticalPath hc hr (by unfold supportedLine at hline; omega) color
  · next hx =>
    obtain ⟨rfl, hlt⟩ : y0 = y1 ∧ x0 < x1 := by unfold supportedLine at hline; omega
    exact replays_horizontalPath hc hr hlt.le color

/-- CLEAR: its write number `n` finds `ADDR = n` (R94). -/
theorem replays_clearEffect {s : State} (hc : s.cfg.wf = true) (color : Byte) :
    Replays s (clearEffect color s) := by
  refine (replays_program hc (surfaceBytes_pos hc) 1#1).trans (replays_forUp
    (P := fun n t => t.stepReg = 1#1 ∧ t.addr.toNat = n) ⟨rfl, rfl⟩ ?_)
  rintro n t hlt hcfg ⟨hstep, rfl⟩
  rw [Nat.zero_add] at hlt
  replace hcfg : t.cfg = s.cfg := hcfg
  rw [← hcfg] at hc hlt
  exact ⟨replays_portWrite hc hlt _, hstep, stepped_portWrite_addr hc hstep hlt _⟩

/-! ### Commands and steps -/

/-- The effect part of a command whose checks passed is the replay of its events. -/
theorem replays_effectPart {s : State} (hc : s.cfg.wf = true) {i : Instr} (hok : checkPart i s = none) :
    Replays s (effectPart i s) := by
  cases i with
  | setaddr a => exact replays_portSetaddr hc (checkPart_setaddr_none.1 hok)
  | setstep n => exact replays_portSetstep n s
  | wrbyte v => exact replays_portWrite hc (checkPart_wrbyte_none.1 hok) v
  | rmw m v =>
    obtain ⟨haddr, hstep⟩ := checkPart_rmw_none.1 hok
    exact replays_portRmw haddr hstep m v
  | clear color => exact replays_clearEffect hc color
  | setpixel x y color => exact replays_pixelEffect hc (checkPart_setpixel_none.1 hok).1 color
  | drawline x0 y0 x1 y1 color =>
    obtain ⟨⟨-, hr⟩, hline, -⟩ := checkPart_drawline_none.1 hok
    exact replays_lineEffect hc hr hline color
  | drawglyph g x y fg bg => exact replays_glyphBody hc g (checkPart_drawglyph_none.1 hok).1 fg bg
  | drawstring p x y fg bg =>
    obtain ⟨⟨n, hscan⟩, -, -⟩ := checkPart_drawstring_none.1 hok
    have hchars := (stringOf_of_scanString_clean hscan).1
    simp only [effectPart, hscan, scan_count_clean]
    exact replays_stringChars hc (fun i hi => (hchars i hi).2.1) fg bg

/-- A replay looks neither at `ERR` nor at the command port. -/
theorem Replays.withErr {s t : State} (h : Replays s t) (e : BitVec 3) : Replays s { t with err := e } :=
  ⟨h.cfg, h.replay⟩

theorem Replays.of_withCommands {s t : State} {ws : List CommandWord} (h : Replays { s with commands := ws } t) :
    Replays s t :=
  ⟨h.cfg, h.replay⟩

/-- Every command that answers a next state is the replay of its events; one that raises has none. -/
theorem replays_exec {s t : State} (hc : s.cfg.wf = true) {i : Instr} (hexec : exec i s = .next t) :
    Replays s t := by
  rcases exec_cases hexec with ⟨k, -, rfl⟩ | ⟨hok, -, rfl⟩
  · exact (Replays.refl s).withErr k.code
  · exact (replays_effectPart hc hok).withErr okCode

/-- Every step that answers a next state is the replay of its events. -/
theorem replays_step {s t : State} (hstep : step s = .next t) : Replays s t := by
  obtain ⟨hc, ⟨-, rfl⟩ | ⟨w, rest, -, ⟨i, -, hexec⟩ | ⟨-, rfl⟩⟩⟩ := step_cases hstep
  · exact .refl t
  · exact (replays_exec (s := { s with commands := rest }) hc hexec).of_withCommands
  · exact ((Replays.refl _).withErr 6#3).of_withCommands (ws := rest)

end Sys2Proof.Machine
end

section
/-! SUPPORT. The pixel port's four commands (spec/40_pixelport.md rules R81 to R84): the outcome of each, run after run,
and the byte a read-modify-write leaves (R86). -/

namespace Sys2Proof.Machine

/-! ### Outcomes -/

/-- A command whose check fails raises and does nothing else (R129). -/
theorem exec_raises {i : Instr} {s : State} {k : ErrorKind} (h : checkPart i s = some k) :
    exec i s = .next { s with err := k.code } := by
  rw [exec_eq_command, h, command_raises, raise_eq]

/-- Where `ADDR` is a `VRAM` address, WRBYTE writes (R83). -/
theorem exec_wrbyte {s : State} (haddr : s.addr.toNat < s.cfg.surfaceBytes) (v : Byte) :
    exec (.wrbyte v) s = .next (complete (portWrite v s)) :=
  exec_completes (checkPart_wrbyte_none.2 haddr) fun _ ha => Option.some.inj ha ▸ haddr

/-- Where `ADDR` is a `VRAM` address and `STEP` is 0, RMW merges (R84). -/
theorem exec_rmw {s : State} (haddr : s.addr.toNat < s.cfg.surfaceBytes) (hstep : s.stepReg = 0#1) (m v : Byte) :
    exec (.rmw m v) s = .next (complete (portRmw m v s)) :=
  exec_completes (checkPart_rmw_none.2 ⟨haddr, hstep⟩) fun _ ha => Option.some.inj ha ▸ haddr

/-- Past the last byte a write is refused (R83). -/
theorem exec_wrbyte_past {s : State} (haddr : s.cfg.surfaceBytes ≤ s.addr.toNat) (v : Byte) :
    exec (.wrbyte v) s = .next { s with err := 1#3 } :=
  exec_raises (k := .addressOutOfRange) (by simp [checkPart, haddr])

theorem read_portWrite {s : State} (hs : Inv s) (v : Byte) (a : Nat) :
    (portWrite v s).vram.read a = if a = s.addr.toNat then v else s.vram.read a := by
  rw [portWrite_vram, Memory.read_write _ (Memory.wf_of_wfSized hs.vramWf)]

theorem read_portRmw {s : State} (hs : Inv s) (m v : Byte) (a : Nat) :
    (portRmw m v s).vram.read a =
      if a = s.addr.toNat then rmwByte (s.vram.read s.addr.toNat) m v else s.vram.read a := by
  rw [portRmw_vram, Memory.read_write _ (Memory.wf_of_wfSized hs.vramWf)]

/-! ### Stepped writes -/

/-- From `s` to `t` the bytes are written at ascending addresses from `ADDR` on, and the port has stepped past them. -/
structure WritesAscending (bytes : List Byte) (s t : State) : Prop where
  cfg : t.cfg = s.cfg
  addr : t.addr.toNat = s.addr.toNat + bytes.length
  step : t.stepReg = 1#1
  read : ∀ k (h : k < bytes.length), t.vram.read (s.addr.toNat + k) = bytes[k]
  frame : ∀ a, (a < s.addr.toNat ∨ s.addr.toNat + bytes.length ≤ a) → t.vram.read a = s.vram.read a

/-- One write, then the rest from the next address. -/
theorem WritesAscending.cons {b : Byte} {rest : List Byte} {s t : State} (hs : Inv s) (hstep : s.stepReg = 1#1)
    (haddr : s.addr.toNat < s.cfg.surfaceBytes) (h : WritesAscending rest (complete (portWrite b s)) t) :
    WritesAscending (b :: rest) s t := by
  have hnext := stepped_portWrite_addr hs.cfgWf hstep haddr b
  obtain ⟨hcfg, haddr', hstep', hread, hframe⟩ := h
  rw [complete_addr, hnext] at haddr' hread hframe
  simp only [complete_vram, read_portWrite hs] at hframe
  refine ⟨hcfg, by rw [haddr', List.length_cons]; omega, hstep', fun k hk => ?_, fun a ha => ?_⟩
  · cases k with
    | zero => rw [hframe _ (.inl (by omega)), Nat.add_zero, if_pos rfl, List.getElem_cons_zero]
    | succ k =>
      rw [List.getElem_cons_succ, ← hread k (Nat.lt_of_succ_lt_succ hk), Nat.add_right_comm, Nat.add_assoc]
  · rw [List.length_cons] at ha
    rw [hframe a (by omega), if_neg (by omega)]

/-- WRBYTEs that fit before the end of `VRAM` write ascending bytes (R83). -/
theorem execAll_wrbytes {bytes : List Byte} {s : State} (hs : Inv s) (hstep : s.stepReg = 1#1)
    (hfits : s.addr.toNat + bytes.length ≤ s.cfg.surfaceBytes) :
    ∃ t, execAll (bytes.map .wrbyte) s = .next t ∧ WritesAscending bytes s t := by
  induction bytes generalizing s with
  | nil => exact ⟨s, rfl, rfl, rfl, hstep, fun k hk => absurd hk (Nat.not_lt_zero k), fun _ _ => rfl⟩
  | cons b rest ih =>
    rw [List.length_cons] at hfits
    have haddr : s.addr.toNat < s.cfg.surfaceBytes := by omega
    have hnext := stepped_portWrite_addr hs.cfgWf hstep haddr b
    obtain ⟨t, hrun, hwrites⟩ := ih (hs.after_portWrite haddr b).after_complete hstep
      (by rw [complete_addr, hnext, complete_cfg, portWrite_cfg]; omega)
    refine ⟨t, ?_, hwrites.cons hs hstep haddr⟩
    rw [List.map_cons, execAll_cons_of_next (exec_wrbyte haddr b), hrun]

/-! ### The byte of a read-modify-write -/

/-- Bit `i` of a merged byte. -/
theorem getElem_rmwByte (old m v : Byte) {i : Nat} (hi : i < 8) :
    (rmwByte old m v)[i] = (old[i] && !m[i] || v[i]) := by
  simp [rmwByte]

/-- A value under its mask has no bit outside it. -/
theorem getElem_of_value_under_mask {m v : Byte} (h : v &&& ~~~m = 0#8) {i : Nat} (hi : i < 8) :
    (v[i] && !m[i]) = false := by
  simpa using congrArg (fun b : Byte => b[i]) h

theorem rmwByte_outside_mask (old : Byte) {m v : Byte} (h : v &&& ~~~m = 0#8) :
    rmwByte old m v &&& ~~~m = old &&& ~~~m := by
  ext i hi
  have hbit := getElem_of_value_under_mask h hi
  rw [BitVec.getElem_and, BitVec.getElem_and, getElem_rmwByte, BitVec.getElem_not]
  revert hbit
  generalize old[i] = o, m[i] = n, v[i] = w
  decide +revert

theorem rmwByte_inside_mask (old : Byte) {m v : Byte} (h : v &&& ~~~m = 0#8) : rmwByte old m v &&& m = v := by
  ext i hi
  have hbit := getElem_of_value_under_mask h hi
  rw [BitVec.getElem_and, getElem_rmwByte]
  revert hbit
  generalize old[i] = o, m[i] = n, v[i] = w
  decide +revert

theorem rmwByte_idempotent (old m v : Byte) : rmwByte (rmwByte old m v) m v = rmwByte old m v := by
  ext i hi
  rw [getElem_rmwByte, getElem_rmwByte]
  generalize old[i] = o, m[i] = n, v[i] = w
  decide +revert

end Sys2Proof.Machine
end

section
/-! CLAIMS. The statements of spec/40_pixelport.md. -/

namespace Sys2Proof.Machine

/-- Settles O32: each micro-operation is the replay of the event it logs where its precondition holds, and the checks of
a command see to the preconditions of its effect part. -/
theorem stepIsTheReplayOfItsEvents : Obligations.StepIsTheReplayOfItsEvents := fun _ _ _ hstep =>
  (replays_step hstep).replay

/-- Settles O28: `ADDR` is at most `SBC` by the invariants, so that other than at `SBC` the check passes. -/
theorem wrbyteWritesThenSteps : Obligations.WrbyteWritesThenSteps := by
  intro v s hs
  split
  · next hend => exact exec_wrbyte_past hend.ge v
  · next hend =>
    have haddr : s.addr.toNat < s.cfg.surfaceBytes := Nat.lt_of_le_of_ne hs.addrLe hend
    refine ⟨_, exec_wrbyte haddr v, ⟨portWrite_addr_toNat hs.cfgWf haddr v, rfl, rfl, ?_, rfl, rfl⟩, ?_, fun a ha => ?_⟩
    · exact events_of_trace_cons _ _ _ (portWrite_trace v s)
    · exact (read_portWrite hs v _).trans (if_pos rfl)
    · exact (read_portWrite hs v a).trans (if_neg ha)

/-- Settles O29, by induction on the bytes: each write leaves `ADDR` at the next address, and at `SBC` a write is
refused. -/
theorem steppedWritesFillAscendingBytes : Obligations.SteppedWritesFillAscendingBytes := by
  intro bytes s hs hstep hfits
  obtain ⟨t, hrun, hwrites⟩ := execAll_wrbytes hs hstep hfits
  refine ⟨t, hrun, hwrites.addr, hwrites.step, hwrites.read, hwrites.frame, fun hend v => exec_wrbyte_past ?_ v⟩
  rw [hwrites.addr, hwrites.cfg, hend]

/-- Settles O30: the check of `ADDR` stands before the check of `STEP` (R128), and where both pass the byte at `ADDR` is
merged. -/
theorem rmwMergesValueUnderMask : Obligations.RmwMergesValueUnderMask := by
  intro m v s hs
  split
  · next hend => exact exec_raises (k := .addressOutOfRange) (by simp [checkPart, hend])
  · next hend =>
    have haddr : s.addr.toNat < s.cfg.surfaceBytes := Nat.lt_of_le_of_ne hs.addrLe hend
    split
    · next hone => exact exec_raises (k := .stepNotZero) (by simp [checkPart, hone, Nat.not_le.2 haddr])
    · next hone =>
      have hzero : s.stepReg = 0#1 := (BitVec.eq_zero_or_eq_one s.stepReg).resolve_right hone
      refine ⟨_, exec_rmw haddr hzero m v, ⟨rfl, rfl, rfl, ?_, rfl, rfl⟩, ?_, fun a ha => ?_⟩
      · exact events_of_trace_cons _ _ _ (portRmw_trace m v s)
      · exact (read_portRmw hs m v _).trans (if_pos rfl)
      · exact (read_portRmw hs m v a).trans (if_neg ha)

/-- Settles O26: an operand below `SBC` passes the check and fits `ADDR` whole. -/
theorem setaddrProgramsTheAddress : Obligations.SetaddrProgramsTheAddress := by
  intro a s
  split
  · next hle => exact exec_raises (k := .addressOutOfRange) (by simp [checkPart, hle])
  · next hle =>
    have ha : a.toNat < s.cfg.surfaceBytes := Nat.lt_of_not_le hle
    rw [exec_completes (checkPart_setaddr_none.2 ha) fun _ hreach => Option.some.inj hreach ▸ ha]
    simp [effectPart, complete, portSetaddr, log, okCode]

/-- Settles O27: SETSTEP has no check and reaches no byte of `VRAM`. -/
theorem setstepProgramsTheStep : Obligations.SetstepProgramsTheStep := fun n _ =>
  exec_completes (i := .setstep n) rfl (fun _ hreach => nomatch hreach)

/-- Settles O31: (a) and (b) bit by bit, (c) and (d) by the nibbles of the merged byte. -/
theorem rmwByteLaws : Obligations.RmwByteLaws := by
  intro old m v
  refine ⟨fun h => ⟨rmwByte_outside_mask old h, rmwByte_inside_mask old h⟩, rmwByte_idempotent old m v, fun c hc => ?_⟩
  rw [rmwByte_high_of_high, rmwByte_low_of_low]
  exact ⟨legalColor_setWidth hc, rmwByte_low_of_high old c, legalColor_setWidth hc, rmwByte_high_of_low old hc⟩

end Sys2Proof.Machine
end

section
/-! SUPPORT. The nibble addresser (spec/41_framebuffer.md): offsets, masks, values and the fill byte (R91 to R93), the
outcomes of its two commands (R94, R95), and pixels set to the colour they already show (R97). -/

namespace Sys2Proof.Machine

/-! ### Offsets -/

/-- The two columns of a pair share a byte (R92). -/
theorem off_pair (c : Config) (k y : Nat) : off c (2 * k + 1) y = off c (2 * k) y := by
  rw [off_succ_column, Nat.mul_mod_right, Nat.add_zero]

/-- The last pixel lies in the last byte (R92). -/
theorem off_last {c : Config} (hc : c.wf = true) : off c (c.width - 1) (c.height - 1) = c.surfaceBytes - 1 := by
  obtain ⟨-, hwidth, -, hheight, -, -⟩ := cfg_bounds hc
  have hrow := rowBytes_twice hc
  obtain ⟨h, hsucc⟩ := Nat.exists_eq_add_of_le' hheight
  rw [surfaceBytes_eq, off, hsucc, Nat.add_sub_cancel, Nat.mul_add_one, Nat.mul_comm h]
  omega

/-! ### Masks, values and the fill byte -/

/-- An even column is a high nibble (R91, R93). -/
theorem column_of_even {x : Nat} (hx : x % 2 = 0) :
    nib x = .hi ∧ pmask x = 0xF0#8 ∧ ∀ k, pval x k = k <<< 4 :=
  ((column_cases x).resolve_right fun hodd => by omega).2

/-- An odd column is a low nibble (R91, R93). -/
theorem column_of_odd {x : Nat} (hx : x % 2 = 1) : nib x = .lo ∧ pmask x = 0x0F#8 ∧ ∀ k, pval x k = k :=
  ((column_cases x).resolve_left fun heven => by omega).2

theorem toNat_legalColor_shift {k : Byte} (hk : legalColor k) : (k <<< 4).toNat = 16 * k.toNat := by
  have hle : k.toNat ≤ 15 := hk
  rw [BitVec.toNat_shiftLeft, Nat.shiftLeft_eq]
  omega

/-- The fill byte holds its colour in both nibbles (R93). -/
theorem toNat_fill {k : Byte} (hk : legalColor k) : (fill k).toNat = 17 * k.toNat := by
  have hlt : k.toNat < 2 ^ 4 := Nat.lt_succ_of_le hk
  rw [fill, BitVec.or_comm, BitVec.toNat_or, toNat_legalColor_shift hk,
    show 16 * k.toNat = k.toNat <<< 4 by rw [Nat.shiftLeft_eq, Nat.mul_comm],
    ← Nat.shiftLeft_add_eq_or_of_lt hlt, Nat.shiftLeft_eq]
  omega

/-- The value of a legal colour never reaches outside the mask of its column (R93). -/
theorem pval_under_pmask (x : Nat) {k : Byte} (hk : legalColor k) : pval x k &&& ~~~(pmask x) = 0#8 := by
  have hbit (i : Nat) (hi : i < 8) (h4 : 4 ≤ i) : k[i] = false := by
    rw [← BitVec.getLsbD_eq_getElem, legalColor_high_bit hk i h4]
  rcases column_cases x with ⟨-, -, hmask, hval⟩ | ⟨-, -, hmask, hval⟩
  all_goals
    rw [hmask, hval]
    ext i hi
    interval_cases i <;> simp [hbit]

/-- Both nibbles of a fill byte show its colour (R93, R96). -/
theorem pixel_of_fill {c : Config} {vram : Memory} {x y : Nat} {k : Byte} (hk : legalColor k)
    (hread : vram.read (off c x y) = fill k) : (pixel c vram x y).toNat = k.toNat := by
  have hle : k.toNat ≤ 15 := hk
  have hhigh : 17 * k.toNat / 2 ^ 4 = k.toNat := by omega
  rcases Nat.mod_two_eq_zero_or_one x with hx | hx
  · rw [pixel_of_even c vram y hx, hread, BitVec.extractLsb_toNat, Nat.shiftRight_eq_div_pow, toNat_fill hk, hhigh]
    omega
  · rw [pixel_of_odd c vram y hx, hread, BitVec.extractLsb_toNat, Nat.shiftRight_zero, toNat_fill hk]
    omega

/-! ### Outcomes -/

theorem checkPart_clear_none {color : Byte} {s : State} :
    checkPart (.clear color) s = none ↔ legalColor color := by
  simp only [checkPart, firstError_cons_eq_none, firstError_nil, and_true]

/-- CLEAR with a legal colour completes (R94). -/
theorem exec_clear {s : State} (hc : s.cfg.wf = true) {color : Byte} (hk : legalColor color) :
    exec (.clear color) s = .next (complete (clearEffect color s)) :=
  exec_completes (checkPart_clear_none.2 hk) fun _ ha =>
    Option.some.inj ha ▸ Nat.sub_one_lt_of_lt (surfaceBytes_pos hc)

/-- SETPIXEL with a coordinate in range and a legal colour completes (R95). -/
theorem exec_setpixel {s : State} (hc : s.cfg.wf = true) {x y : Half} (hr : inRange s.cfg x.toNat y.toNat)
    {color : Byte} (hk : legalColor color) :
    exec (.setpixel x y color) s = .next (complete (pixelEffect x.toNat y.toNat color s)) :=
  exec_completes (checkPart_setpixel_none.2 ⟨hr, hk⟩) fun _ ha => Option.some.inj ha ▸ off_lt hc hr

/-- What a completed CLEAR leaves beside `VRAM` (R94). -/
theorem leaves_clear {s : State} (hs : Inv s) (color : Byte) :
    Leaves s (complete (clearEffect color s)) s.cfg.surfaceBytes 1#1
      (.sa 0 :: .ss 1#1 :: (List.range s.cfg.surfaceBytes).map fun k => .wr k (fill color)) := by
  have hfills := fills_clearEffect hs.cfgWf hs.vramWf color
  refine ⟨hfills.addr, hfills.step, rfl, hfills.events.trans ?_, hfills.port.cfg, hfills.port.commands⟩
  simp [State.events]

/-- CLEAR fills the surface and nothing outside it (R94). -/
theorem read_clearEffect {s : State} (hs : Inv s) (color : Byte) (a : Nat) :
    (clearEffect color s).vram.read a = if a < s.cfg.surfaceBytes then fill color else s.vram.read a :=
  (fills_clearEffect hs.cfgWf hs.vramWf color).read a

/-- The effect part of SETPIXEL paints its dot on the video memory (R95). -/
theorem vram_pixelEffect {s : State} (hc : s.cfg.wf = true) {x y : Nat} (hr : inRange s.cfg x y) (k : Byte) :
    (pixelEffect x y k s).vram = paint s.cfg (x, y, k) s.vram :=
  (draws_pixelEffect s hc x y k hr).vram

/-- A dot merges its value under its mask into the byte of its coordinate, and touches no other byte (R95). -/
theorem read_paint (c : Config) (x y : Nat) (k : Byte) {vram : Memory} (hv : vram.wf = true) (a : Nat) :
    (paint c (x, y, k) vram).read a =
      if a = off c x y then rmwByte (vram.read (off c x y)) (pmask x) (pval x k) else vram.read a :=
  Memory.read_write vram hv _ _ a

theorem rmwByte_of_even {x : Nat} (hx : x % 2 = 0) (old k : Byte) :
    rmwByte old (pmask x) (pval x k) = (k <<< 4) ||| (old &&& 0x0F#8) := by
  obtain ⟨-, hmask, hval⟩ := column_of_even hx
  rw [hmask, hval, rmwByte, BitVec.or_comm]
  rfl

theorem rmwByte_of_odd {x : Nat} (hx : x % 2 = 1) (old k : Byte) :
    rmwByte old (pmask x) (pval x k) = (old &&& 0xF0#8) ||| k := by
  obtain ⟨-, hmask, hval⟩ := column_of_odd hx
  rw [hmask, hval]
  rfl

/-! ### Pixels set to the colour they show -/

/-- A dot of the colour its coordinate already shows changes nothing. -/
theorem paint_of_shown {c : Config} (hc : c.wf = true) {d : Dot} (hd : d.legal c) {vram : Memory}
    (hv : vram.wfSized c.surfaceBytes = true) (hshown : (pixel c vram d.1 d.2.1).toNat = d.2.2.toNat) :
    paint c d vram = vram := by
  refine vram_ext hc (wfSized_paint hc hd hv) hv fun x y hr => ?_
  rw [pixel_paint hc (Memory.wf_of_wfSized hv) hd hr]
  split
  · next hat =>
    rw [hat.1, hat.2]
    exact BitVec.eq_of_toNat_eq ((legalColor_setWidth hd.2).trans hshown.symm)
  · rfl

/-- SETPIXELs with the colour each pixel of the surface already shows all end with result 0 and leave `VRAM` as it
was. -/
theorem execAll_setpixels_of_shown {color : Byte} (hk : legalColor color) (pixels : List (Half × Half)) {s : State}
    (hs : Inv s) (hr : ∀ q ∈ pixels, inRange s.cfg q.1.toNat q.2.toNat)
    (hshown : ∀ x y, inRange s.cfg x y → (pixel s.cfg s.vram x y).toNat = color.toNat) :
    ∃ t, safeRun (pixels.map fun q => .setpixel q.1 q.2 color) s ∧
      execAll (pixels.map fun q => .setpixel q.1 q.2 color) s = .next t ∧ t.vram = s.vram := by
  induction pixels generalizing s with
  | nil => exact ⟨s, rfl, rfl, rfl⟩
  | cons q rest ih =>
    obtain ⟨hq, hrest⟩ := List.forall_mem_cons.1 hr
    have hexec := exec_setpixel hs.cfgWf hq hk
    have hcfg := (exec_keeps_parameters hexec).1
    have hvram : (complete (pixelEffect q.1.toNat q.2.toNat color s)).vram = s.vram :=
      (vram_pixelEffect hs.cfgWf hq color).trans (paint_of_shown hs.cfgWf ⟨hq, hk⟩ hs.vramWf (hshown _ _ hq))
    obtain ⟨t, hsafe, hrun, hsame⟩ := ih (hs.after_exec hexec) (hcfg ▸ hrest) (by rwa [hcfg, hvram])
    refine ⟨t, ?_, ?_, hsame.trans hvram⟩
    · exact (safeRun_cons_of_next hexec _).2 ⟨rfl, hsafe⟩
    · exact (execAll_cons_of_next hexec _).trans hrun

end Sys2Proof.Machine
end

section
/-! CLAIMS. The statements of spec/41_framebuffer.md. -/

namespace Sys2Proof.Machine

/-- Settles O33: an offset in range lies below `SBC`, which fits 16 bits. -/
theorem offsetOfAPixelIsAVramAddress : Obligations.OffsetOfAPixelIsAVramAddress := fun c _ y hc hr =>
  ⟨rfl, Nat.le_sub_one_of_lt (off_lt hc hr), off_lt_two_pow hc hr, off_last hc, fun k => (off_pair c k y).symm⟩

/-- Settles O37: the check leaves a legal colour, and the loop of CLEAR writes the fill byte at every address. -/
theorem clearFillsEveryByte : Obligations.ClearFillsEveryByte := by
  intro color s hs
  split
  · next hbad => exact exec_raises (k := .invalidColor) (by simp [checkPart, hbad])
  · next hlegal =>
    have hk : legalColor color := Nat.le_of_not_lt hlegal
    refine ⟨_, exec_clear hs.cfgWf hk, leaves_clear hs color, fun a ha => ?_, fun a ha => ?_⟩
    · rw [complete_vram, read_clearEffect hs, if_pos ha, toNat_fill hk]
    · rw [complete_vram, read_clearEffect hs, if_neg (Nat.not_lt.2 ha)]

/-- Settles O38: the check of the coordinate stands before that of the colour (R128), and where both pass the byte of
the coordinate is merged under the mask of its column. -/
theorem setpixelSetsOneNibble : Obligations.SetpixelSetsOneNibble := by
  intro x y color s hs
  split
  · next hout => exact exec_raises (k := .addressOutOfRange) (by simpa [checkPart, imp_iff_not_or] using hout)
  · next hin =>
    have hr : inRange s.cfg x.toNat y.toNat := ⟨by omega, by omega⟩
    split
    · next hbad => exact exec_raises (k := .invalidColor) (by simp [checkPart, hr, hbad])
    · next hlegal =>
      have hread := read_paint s.cfg x.toNat y.toNat color (Memory.wf_of_wfSized hs.vramWf)
      rw [← vram_pixelEffect hs.cfgWf hr color] at hread
      refine ⟨_, exec_setpixel hs.cfgWf hr (Nat.le_of_not_lt hlegal),
        (draws_pixelEffect s hs.cfgWf _ _ color hr).leaves, fun heven => ?_, fun hodd => ?_, fun a ha => ?_⟩
      · rw [complete_vram, hread, if_pos rfl, rmwByte_of_even heven]
      · rw [complete_vram, hread, if_pos rfl, rmwByte_of_odd hodd]
      · rw [complete_vram, hread, if_neg ha]

/-- Settles O39: a SETPIXEL that does not raise paints one legal dot, which shows at its own coordinate only. -/
theorem setpixelChangesOnePixel : Obligations.SetpixelChangesOnePixel := by
  intro x y color s t hs hexec herr
  obtain ⟨hok, -, rfl⟩ := exec_success hexec herr
  obtain ⟨hr, hk⟩ := checkPart_setpixel_none.1 hok
  have hvram : (complete (effectPart (.setpixel x y color) s)).vram = paint s.cfg (x.toNat, y.toNat, color) s.vram :=
    vram_pixelEffect hs.cfgWf hr color
  have hpixel {x' y' : Nat} := pixel_paint hs.cfgWf (Memory.wf_of_wfSized hs.vramWf)
    (d := (x.toNat, y.toNat, color)) ⟨hr, hk⟩ (x := x') (y := y')
  rw [hvram]
  refine ⟨?_, fun x' y' hr' hne => ?_⟩
  · rw [hpixel hr, if_pos ⟨rfl, rfl⟩, legalColor_setWidth hk]
  · rw [hpixel hr', if_neg (not_and_or.2 hne)]

/-- Settles O40: after CLEAR every pixel shows the colour, and a pixel set to the colour it shows changes no byte. -/
theorem clearThenSetpixelsKeepTheFill : Obligations.ClearThenSetpixelsKeepTheFill := by
  intro color pixels s hs hk hr
  have hexec := exec_clear hs.cfgWf hk
  have hcfg := (exec_keeps_parameters hexec).1
  have hfill : ∀ a, a < s.cfg.surfaceBytes → (complete (clearEffect color s)).vram.read a = fill color :=
    fun a ha => (read_clearEffect hs color a).trans (if_pos ha)
  have hshown : ∀ x y, inRange s.cfg x y →
      (pixel s.cfg (complete (clearEffect color s)).vram x y).toNat = color.toNat :=
    fun x y hxy => pixel_of_fill hk (hfill _ (off_lt hs.cfgWf hxy))
  obtain ⟨u, hsafe, hrun, hsame⟩ :=
    execAll_setpixels_of_shown hk pixels (hs.after_exec hexec) (hcfg ▸ hr) (by rwa [hcfg])
  exact ⟨_, u, hexec, hshown, hsafe, hrun, fun a ha => hsame ▸ hfill a ha⟩

/-- Settles O35: the two columns of a pair (R91), and the numbers the value and the fill byte of a legal colour are. -/
theorem nibbleMaskAndValue : Obligations.NibbleMaskAndValue := by
  intro x color hk
  refine ⟨fun heven => ?_, fun hodd => ?_, pval_under_pmask x hk, rfl, BitVec.or_comm _ _, toNat_fill hk⟩
  · obtain ⟨hnib, hmask, hval⟩ := column_of_even heven
    exact ⟨hnib, hmask, hval color, by rw [hval, toNat_legalColor_shift hk]⟩
  · obtain ⟨hnib, hmask, hval⟩ := column_of_odd hodd
    exact ⟨hnib, hmask, hval color⟩

end Sys2Proof.Machine
end

section
/-! SUPPORT. The line stepper (spec/42_linedrawer.md): the classes of a request (R101), the outcomes of DRAWLINE (R100),
what a line leaves (R102, R103), and SETPIXELs in drawing order beside it (R104). -/

namespace Sys2Proof.Machine

/-! ### Classes -/

/-- What R101 demands of the coordinates of a request of each class. -/
def LineClass.condition (x0 y0 x1 y1 : Nat) : LineClass → Prop
  | .point => x0 = x1 ∧ y0 = y1
  | .verticalAscending => x0 = x1 ∧ y0 < y1
  | .verticalReversed => x0 = x1 ∧ y0 > y1
  | .horizontalAscending => x0 < x1 ∧ y0 = y1
  | .horizontalReversed => x0 > x1 ∧ y0 = y1
  | .diagonal => x0 ≠ x1 ∧ y0 ≠ y1

/-- The classes are exhaustive: a request meets the condition of its class. -/
theorem condition_lineClass (x0 y0 x1 y1 : Nat) : (lineClass x0 y0 x1 y1).condition x0 y0 x1 y1 := by
  unfold lineClass
  split_ifs <;> simp only [LineClass.condition] <;> omega

/-- The classes are exclusive: a request is of the class whose condition it meets. -/
theorem lineClass_of_condition {x0 y0 x1 y1 : Nat} {cl : LineClass} (h : cl.condition x0 y0 x1 y1) :
    lineClass x0 y0 x1 y1 = cl := by
  cases cl with
  | point => rw [lineClass, if_pos h.1, if_pos h.2]
  | verticalAscending => rw [lineClass, if_pos h.1, if_neg h.2.ne, if_pos h.2]
  | verticalReversed => rw [lineClass, if_pos h.1, if_neg h.2.ne', if_neg h.2.not_gt]
  | horizontalAscending => rw [lineClass, if_neg h.1.ne, if_pos h.2, if_pos h.1]
  | horizontalReversed => rw [lineClass, if_neg h.1.ne', if_pos h.2, if_neg h.1.not_gt]
  | diagonal => rw [lineClass, if_neg h.1, if_neg h.2]

theorem lineClass_eq_iff {x0 y0 x1 y1 : Nat} {cl : LineClass} :
    lineClass x0 y0 x1 y1 = cl ↔ cl.condition x0 y0 x1 y1 :=
  ⟨fun h => h ▸ condition_lineClass x0 y0 x1 y1, lineClass_of_condition⟩

/-! ### The two paths as one -/

theorem lineEffect_vertical (x y0 y1 : Nat) (k : Byte) (s : State) :
    lineEffect x y0 x y1 k s = verticalPath x y0 y1 k s := if_pos rfl

theorem lineEffect_horizontal {x0 x1 : Nat} (hx : x0 < x1) (y : Nat) (k : Byte) (s : State) :
    lineEffect x0 y x1 y k s = horizontalPath x0 x1 y k s := if_neg hx.ne

/-- A line of one point programs the port and merges one nibble, as SETPIXEL does (R104). -/
theorem lineEffect_point (x y : Nat) (k : Byte) (s : State) : lineEffect x y x y k s = pixelEffect x y k s := by
  rw [lineEffect_vertical, verticalPath, Nat.add_sub_cancel_left, forUp_succ, forUp_zero, verticalRow,
    if_neg (Nat.lt_irrefl y), pixelEffect]

/-- The request of a DRAWLINE that does not raise: by its shape, the first point is in range with the last one. -/
structure Drawable (c : Config) (x0 y0 x1 y1 : Nat) (k : Byte) : Prop where
  last : inRange c x1 y1
  line : supportedLine x0 y0 x1 y1
  colour : legalColor k

/-- A coordinate lies on a supported line. -/
abbrev onLine (x0 y0 x1 y1 x y : Nat) : Prop := x0 ≤ x ∧ x ≤ x1 ∧ y0 ≤ y ∧ y ≤ y1

theorem Drawable.inRange_of_onLine {c : Config} {x0 y0 x1 y1 : Nat} {k : Byte} (h : Drawable c x0 y0 x1 y1 k)
    {x y : Nat} (hxy : onLine x0 y0 x1 y1 x y) : inRange c x y :=
  ⟨Nat.lt_of_le_of_lt hxy.2.1 h.last.1, Nat.lt_of_le_of_lt hxy.2.2.2 h.last.2⟩

/-- A supported line runs right or down. -/
theorem supportedLine_le {x0 y0 x1 y1 : Nat} (h : supportedLine x0 y0 x1 y1) : x0 ≤ x1 ∧ y0 ≤ y1 := by
  unfold supportedLine at h
  omega

/-- The dots of a line in drawing order (R102, R103). -/
def lineDots (x0 y0 x1 y1 : Nat) (k : Byte) : List Dot :=
  if x0 = x1 then verticalDots x0 y0 y1 k else horizontalDots x0 x1 y0 k

/-- The events of a line (R102, R103). -/
def lineEvents (c : Config) (x0 y0 x1 y1 : Nat) (k : Byte) : List PortEvent :=
  .sa (off c x0 y0) :: .ss 0#1 ::
    (if x0 = x1 then verticalEvents c x0 y0 y1 k else horizontalEvents c x0 x1 y0 k)

/-- The dots of a supported line are the coordinates on it, all in its colour. -/
theorem mem_lineDots {x0 y0 x1 y1 : Nat} (hline : supportedLine x0 y0 x1 y1) {k : Byte} {d : Dot} :
    d ∈ lineDots x0 y0 x1 y1 k ↔ onLine x0 y0 x1 y1 d.1 d.2.1 ∧ d.2.2 = k := by
  obtain ⟨x, y, j⟩ := d
  unfold lineDots
  rcases hline with ⟨rfl, hy⟩ | ⟨rfl, hx⟩
  · simp only [if_true, verticalDots, List.mem_flatMap, List.mem_range'_1, List.mem_singleton, Prod.mk.injEq]
    constructor
    · rintro ⟨y, hrange, rfl, rfl, rfl⟩
      exact ⟨⟨le_rfl, le_rfl, by omega, by omega⟩, rfl⟩
    · rintro ⟨hon, rfl⟩
      exact ⟨y, by omega, by omega, rfl, rfl⟩
  · simp only [hx.ne, if_false, horizontalDots, List.mem_flatMap, List.mem_range'_1, List.mem_singleton,
      Prod.mk.injEq]
    constructor
    · rintro ⟨x, hrange, rfl, rfl, rfl⟩
      exact ⟨⟨by omega, by omega, le_rfl, le_rfl⟩, rfl⟩
    · rintro ⟨hon, rfl⟩
      exact ⟨x, by omega, rfl, by omega, rfl⟩

theorem Drawable.legal {c : Config} {x0 y0 x1 y1 : Nat} {k : Byte} (h : Drawable c x0 y0 x1 y1 k) :
    ∀ d ∈ lineDots x0 y0 x1 y1 k, Dot.legal c d := fun _ hd =>
  have ⟨hon, hcolour⟩ := (mem_lineDots h.line).1 hd
  ⟨h.inRange_of_onLine hon, hcolour ▸ h.colour⟩

/-- All that a line does (R102, R103). -/
theorem draws_lineEffect {s : State} (hc : s.cfg.wf = true) {x0 y0 x1 y1 : Nat} {k : Byte}
    (h : Drawable s.cfg x0 y0 x1 y1 k) :
    Draws s (lineEffect x0 y0 x1 y1 k s) (lineDots x0 y0 x1 y1 k) (lineEvents s.cfg x0 y0 x1 y1 k)
      (off s.cfg x1 y1) := by
  unfold lineDots lineEvents
  rcases h.line with ⟨rfl, hy⟩ | ⟨rfl, hx⟩
  · rw [lineEffect_vertical, if_pos rfl, if_pos rfl]
    exact draws_verticalPath hc h.last hy k
  · rw [lineEffect_horizontal hx, if_neg hx.ne, if_neg hx.ne]
    exact draws_horizontalPath hc h.last hx.le k

/-! ### What a line shows -/

/-- Pixels on a line have its colour, and every other pixel is as before. -/
theorem pixel_lineEffect {s : State} (hs : Inv s) {x0 y0 x1 y1 : Nat} {k : Byte} (h : Drawable s.cfg x0 y0 x1 y1 k)
    {x y : Nat} (hr : inRange s.cfg x y) :
    pixel s.cfg (lineEffect x0 y0 x1 y1 k s).vram x y =
      if onLine x0 y0 x1 y1 x y then k.setWidth 4 else pixel s.cfg s.vram x y := by
  rw [(draws_lineEffect hs.cfgWf h).vram, pixel_paintAll hs.cfgWf h.legal hs.vramWf hr]
  split_ifs with hon
  · rw [lastDot_some (fun d hd _ => ((mem_lineDots h.line).1 hd).2)
      ⟨(x, y, k), (mem_lineDots h.line).2 ⟨hon, rfl⟩, rfl, rfl⟩]
  · rw [lastDot_none]
    rintro d hd ⟨rfl, rfl⟩
    exact hon ((mem_lineDots h.line).1 hd).1

/-- The colour of a pixel on a line. -/
theorem pixel_lineEffect_on {s : State} (hs : Inv s) {x0 y0 x1 y1 : Nat} {k : Byte}
    (h : Drawable s.cfg x0 y0 x1 y1 k) {x y : Nat} (hon : onLine x0 y0 x1 y1 x y) :
    (pixel s.cfg (lineEffect x0 y0 x1 y1 k s).vram x y).toNat = k.toNat := by
  rw [pixel_lineEffect hs h (h.inRange_of_onLine hon), if_pos hon, legalColor_setWidth h.colour]

/-- A byte in which no pixel of a line lies is as before. -/
theorem read_lineEffect_off {s : State} (hs : Inv s) {x0 y0 x1 y1 : Nat} {k : Byte}
    (h : Drawable s.cfg x0 y0 x1 y1 k) {a : Nat} (ha : ∀ x y, onLine x0 y0 x1 y1 x y → a ≠ off s.cfg x y) :
    (lineEffect x0 y0 x1 y1 k s).vram.read a = s.vram.read a := by
  rw [(draws_lineEffect hs.cfgWf h).vram]
  exact read_paintAll_of_ne (Memory.wf_of_wfSized hs.vramWf) fun d hd => ha _ _ ((mem_lineDots h.line).1 hd).1

/-! ### Outcomes -/

theorem checkPart_drawline_none_iff_drawable {x0 y0 x1 y1 : Half} {k : Byte} {s : State} :
    checkPart (.drawline x0 y0 x1 y1 k) s = none ↔ Drawable s.cfg x0.toNat y0.toNat x1.toNat y1.toNat k := by
  rw [checkPart_drawline_none]
  constructor
  · rintro ⟨⟨-, hr⟩, hline, hk⟩
    exact ⟨hr, hline, hk⟩
  · intro h
    obtain ⟨hx, hy⟩ := supportedLine_le h.line
    exact ⟨⟨h.inRange_of_onLine ⟨le_rfl, hx, le_rfl, hy⟩, h.last⟩, h.line, h.colour⟩

/-- A drawable DRAWLINE completes (R100). -/
theorem exec_drawline {s : State} (hc : s.cfg.wf = true) {x0 y0 x1 y1 : Half} {k : Byte}
    (h : Drawable s.cfg x0.toNat y0.toNat x1.toNat y1.toNat k) :
    exec (.drawline x0 y0 x1 y1 k) s = .next (complete (lineEffect x0.toNat y0.toNat x1.toNat y1.toNat k s)) :=
  exec_completes (checkPart_drawline_none_iff_drawable.2 h) fun _ ha => Option.some.inj ha ▸ off_lt hc h.last

/-- A DRAWLINE that left `ERR = 0` was drawable and had its whole effect. -/
theorem drawline_success {x0 y0 x1 y1 : Half} {k : Byte} {s t : State}
    (hexec : exec (.drawline x0 y0 x1 y1 k) s = .next t) (herr : t.err = 0#3) :
    Drawable s.cfg x0.toNat y0.toNat x1.toNat y1.toNat k ∧
      t = complete (lineEffect x0.toNat y0.toNat x1.toNat y1.toNat k s) :=
  have ⟨hok, _, ht⟩ := exec_success hexec herr
  ⟨checkPart_drawline_none_iff_drawable.1 hok, ht⟩

/-- What a drawable DRAWLINE shows, in terms of the parameters it is issued with. -/
theorem pixel_drawline {c : Config} {s t : State} (hs : Inv s) (hcfg : s.cfg = c) {x0 y0 x1 y1 : Half} {k : Byte}
    (h : Drawable c x0.toNat y0.toNat x1.toNat y1.toNat k) (hexec : exec (.drawline x0 y0 x1 y1 k) s = .next t)
    {x y : Nat} (hr : inRange c x y) :
    pixel c t.vram x y =
      if onLine x0.toNat y0.toNat x1.toNat y1.toNat x y then k.setWidth 4 else pixel c s.vram x y := by
  subst hcfg
  rw [exec_drawline hs.cfgWf h] at hexec
  cases hexec
  exact pixel_lineEffect hs h hr

/-! ### Commands that paint, one after another -/

/-- From `s` to `t` a run of successful commands painted the dots in order and left `ADDR` at `addr` and `STEP` at 0;
nothing else changed, but for `TRACE`. -/
structure Paints (s t : State) (dots : List Dot) (addr : Nat) : Prop where
  vram : t.vram = paintAll s.cfg dots s.vram
  cfg : t.cfg = s.cfg
  commands : t.commands = s.commands
  err : t.err = 0#3
  step : t.stepReg = 0#1
  addr : t.addr.toNat = addr

/-- A completed drawing. -/
theorem Draws.paints {s t : State} {ds : List Dot} {evs : List PortEvent} {a : Nat} (h : Draws s t ds evs a) :
    Paints s (complete t) ds a :=
  ⟨h.vram, h.cfg, h.commands, rfl, h.step, h.addr⟩

theorem Paints.trans {s t u : State} {ds es : List Dot} {a b : Nat} (h : Paints s t ds a) (h' : Paints t u es b) :
    Paints s u (ds ++ es) b where
  vram := by rw [h'.vram, h.vram, h.cfg, paintAll_append]
  cfg := h'.cfg.trans h.cfg
  commands := h'.commands.trans h.commands
  err := h'.err
  step := h'.step
  addr := h'.addr

/-- The same dots painted with the same last address leave the same state, but for `TRACE`. -/
theorem Paints.unique {s t u : State} {ds : List Dot} {a : Nat} (h : Paints s t ds a) (h' : Paints s u ds a) :
    u = { t with trace := u.trace } :=
  eq_with_trace (h'.addr.trans h.addr.symm) (h'.step.trans h.step.symm) (h'.err.trans h.err.symm)
    (h'.vram.trans h.vram.symm) (h'.cfg.trans h.cfg.symm) (h'.commands.trans h.commands.symm)

/-- At least one command, each of which paints from every state that meets the invariants. -/
theorem execAll_paints (cmd : Nat → Instr) (dots : Nat → List Dot) (addr : Nat → Nat) (a n : Nat) {s : State}
    (hs : Inv s)
    (hcmd : ∀ i t, a ≤ i → i ≤ a + n → Inv t → t.cfg = s.cfg →
      ∃ u, exec (cmd i) t = .next u ∧ Paints t u (dots i) (addr i)) :
    ∃ u, safeRun ((List.range' a (n + 1)).map cmd) s ∧ execAll ((List.range' a (n + 1)).map cmd) s = .next u ∧
      Inv u ∧ Paints s u ((List.range' a (n + 1)).flatMap dots) (addr (a + n)) := by
  have hone (i : Nat) (t u : State) (hexec : exec (cmd i) t = .next u) (herr : u.err = 0#3) :
      safeRun [cmd i] t ∧ execAll [cmd i] t = .next u :=
    ⟨(safeRun_cons_of_next hexec []).2 ⟨herr, safeRun_nil u⟩, execAll_cons_of_next hexec []⟩
  induction n with
  | zero =>
    obtain ⟨u, hexec, hpaints⟩ := hcmd a s le_rfl le_rfl hs rfl
    obtain ⟨hsafe, hrun⟩ := hone a s u hexec hpaints.err
    exact ⟨u, hsafe, hrun, hs.after_exec hexec, by simpa using hpaints⟩
  | succ n ih =>
    obtain ⟨t, hsafe, hrun, ht, hinit⟩ := ih fun i t h1 h2 => hcmd i t h1 (by omega)
    obtain ⟨u, hexec, hlast⟩ := hcmd (a + (n + 1)) t (by omega) le_rfl ht hinit.cfg
    obtain ⟨hsafe', hrun'⟩ := hone _ t u hexec hlast.err
    rw [List.range'_concat, List.map_append, List.flatMap_append, Nat.one_mul]
    refine ⟨u, safeRun_append_of_next hrun hsafe hsafe', ?_, ht.after_exec hexec, by simpa using hinit.trans hlast⟩
    exact (execAll_append_of_next hrun _).trans hrun'

/-- A SETPIXEL in range with a legal colour paints its dot (R95). -/
theorem setpixel_paints {c : Config} {x y : Half} {px py : Nat} (hx : x.toNat = px) (hy : y.toNat = py) {k : Byte}
    (hr : inRange c px py) (hk : legalColor k) {t : State} (ht : Inv t) (hcfg : t.cfg = c) :
    ∃ u, exec (.setpixel x y k) t = .next u ∧ Paints t u [(px, py, k)] (off c px py) := by
  subst hx hy hcfg
  exact ⟨_, exec_setpixel ht.cfgWf hr hk, (draws_pixelEffect t ht.cfgWf _ _ k hr).paints⟩

/-- The SETPIXELs over the pixels of a line in drawing order (R104). -/
def lineSetpixels (x0 y0 x1 y1 : Half) (k : Byte) : List Instr :=
  if x0 = x1 then
    (List.range' y0.toNat (y1.toNat - y0.toNat + 1)).map fun y => .setpixel x0 (BitVec.ofNat 16 y) k
  else (List.range' x0.toNat (x1.toNat - x0.toNat + 1)).map fun x => .setpixel (BitVec.ofNat 16 x) y0 k

/-- A number up to an operand fits the operand's field. -/
theorem toNat_ofNat_of_le {n : Nat} {b : Half} (h : n ≤ b.toNat) : (BitVec.ofNat 16 n).toNat = n := by
  rw [BitVec.toNat_ofNat, Nat.mod_eq_of_lt (Nat.lt_of_le_of_lt h b.isLt)]

/-- The SETPIXELs over a drawable line all end with result 0, and paint its dots (R104). -/
theorem lineSetpixels_paint {s : State} (hs : Inv s) {x0 y0 x1 y1 : Half} {k : Byte}
    (h : Drawable s.cfg x0.toNat y0.toNat x1.toNat y1.toNat k) :
    ∃ u, safeRun (lineSetpixels x0 y0 x1 y1 k) s ∧ execAll (lineSetpixels x0 y0 x1 y1 k) s = .next u ∧
      Paints s u (lineDots x0.toNat y0.toNat x1.toNat y1.toNat k) (off s.cfg x1.toNat y1.toNat) := by
  obtain ⟨hr, hline, hk⟩ := h
  unfold lineSetpixels lineDots
  simp only [BitVec.toNat_inj]
  by_cases hx : x0 = x1
  · subst hx
    have hy : y0.toNat ≤ y1.toNat := (supportedLine_le hline).2
    obtain ⟨u, hsafe, hrun, -, hpaints⟩ := execAll_paints (fun y => .setpixel x0 (BitVec.ofNat 16 y) k)
      (fun y => [(x0.toNat, y, k)]) (fun y => off s.cfg x0.toNat y) y0.toNat (y1.toNat - y0.toNat) hs
      fun y t _ hle => setpixel_paints rfl (toNat_ofNat_of_le (b := y1) (by omega))
        ⟨hr.1, by have := hr.2; omega⟩ hk
    rw [Nat.add_sub_cancel' hy] at hpaints
    exact ⟨u, by simpa using hsafe, by simpa using hrun, by simpa [verticalDots] using hpaints⟩
  · obtain ⟨hlt, rfl⟩ : x0.toNat < x1.toNat ∧ y0 = y1 := by
      rcases hline with ⟨heq, -⟩ | ⟨heq, hlt⟩
      · exact absurd (BitVec.eq_of_toNat_eq heq) hx
      · exact ⟨hlt, BitVec.eq_of_toNat_eq heq⟩
    obtain ⟨u, hsafe, hrun, -, hpaints⟩ := execAll_paints (fun x => .setpixel (BitVec.ofNat 16 x) y0 k)
      (fun x => [(x, y0.toNat, k)]) (fun x => off s.cfg x y0.toNat) x0.toNat (x1.toNat - x0.toNat) hs
      fun x t _ hle => setpixel_paints (toNat_ofNat_of_le (b := x1) (by omega)) rfl
        ⟨by have := hr.1; omega, hr.2⟩ hk
    rw [Nat.add_sub_cancel' hlt.le] at hpaints
    exact ⟨u, by simpa [hx] using hsafe, by simpa [hx] using hrun, by simpa [hx, horizontalDots] using hpaints⟩

end Sys2Proof.Machine
end

section
/-! CLAIMS. The statements of spec/42_linedrawer.md. -/

namespace Sys2Proof.Machine

/-- Settles O42: each failing check is the first of R100's order, and with none failing the line is drawable. -/
theorem drawlineChecksInOrder : Obligations.DrawlineChecksInOrder := by
  intro x0 y0 x1 y1 color s hs
  split
  · next hout =>
    refine exec_raises (k := .addressOutOfRange) ?_
    have hnot : ¬ (inRange s.cfg x0.toNat y0.toNat ∧ inRange s.cfg x1.toNat y1.toNat) := by
      unfold inRange
      omega
    simp only [checkPart, firstError_cons, hnot, not_false_eq_true, decide_true, if_true]
  · next hin =>
    have hr : inRange s.cfg x0.toNat y0.toNat ∧ inRange s.cfg x1.toNat y1.toNat := by
      unfold inRange
      omega
    simp only [← BitVec.toNat_inj]
    split
    · next hgeom => exact exec_raises (k := .unsupportedGeometry) (by simp [checkPart, hr, hgeom])
    · next hgeom =>
      have hline : supportedLine x0.toNat y0.toNat x1.toNat y1.toNat := not_not.1 hgeom
      split
      · next hbad => exact exec_raises (k := .invalidColor) (by simp [checkPart, hr, hline, hbad])
      · next hlegal => exact ⟨_, exec_drawline hs.cfgWf ⟨hr.2, hline, Nat.le_of_not_lt hlegal⟩, rfl⟩

/-- Settles O43: a column is a drawable line, and a coordinate is on it when it is in its column between
its ends. -/
theorem verticalLineDrawsItsColumn : Obligations.VerticalLineDrawsItsColumn := by
  intro x0 y0 y1 color s hs hr hy hk
  have hline : Drawable s.cfg x0.toNat y0.toNat x0.toNat y1.toNat color := ⟨hr, .inl ⟨rfl, hy⟩, hk⟩
  refine ⟨_, exec_drawline hs.cfgWf hline, ?_, fun y h0 h1 => ?_, fun x y hxy hoff => ?_, fun a ha => ?_⟩
  · simpa [lineEvents, verticalEvents] using (draws_lineEffect hs.cfgWf hline).leaves
  · exact pixel_lineEffect_on hs hline ⟨le_rfl, le_rfl, h0, h1⟩
  · exact (pixel_lineEffect hs hline hxy).trans (if_neg (by omega))
  · refine read_lineEffect_off hs hline fun x y hon => ?_
    obtain rfl : x = x0.toNat := by omega
    exact ha y hon.2.2.1 hon.2.2.2

/-- Settles O44: a row is a drawable line, and a coordinate is on it when it is in its row between its
ends. -/
theorem horizontalLineDrawsItsRow : Obligations.HorizontalLineDrawsItsRow := by
  intro x0 x1 y0 color s hs hr hx hk
  have hline : Drawable s.cfg x0.toNat y0.toNat x1.toNat y0.toNat color := ⟨hr, .inr ⟨rfl, hx⟩, hk⟩
  refine ⟨_, exec_drawline hs.cfgWf hline, ?_, fun x h0 h1 => ?_, fun x y hxy hoff => ?_, fun a ha => ?_⟩
  · simpa [lineEvents, horizontalEvents, hx.ne] using (draws_lineEffect hs.cfgWf hline).leaves
  · exact pixel_lineEffect_on hs hline ⟨h0, h1, le_rfl, le_rfl⟩
  · exact (pixel_lineEffect hs hline hxy).trans (if_neg (by omega))
  · refine read_lineEffect_off hs hline fun x y hon => ?_
    obtain rfl : y = y0.toNat := by omega
    exact ha x hon.1 hon.2.1

/-- Settles O45: the line and its SETPIXELs paint the same dots and leave the address of the last one. -/
theorem drawlineEqualsItsSetpixels : Obligations.DrawlineEqualsItsSetpixels := by
  intro x0 y0 x1 y1 color s t hs hexec herr
  obtain ⟨hline, rfl⟩ := drawline_success hexec herr
  obtain ⟨u, hsafe, hrun, hpaints⟩ := lineSetpixels_paint hs hline
  exact ⟨hsafe, u, hrun, (draws_lineEffect hs.cfgWf hline).paints.unique hpaints⟩

/-- Settles O47: the later line shows at the common pixel; with one colour, either order shows it exactly on the two
lines, and video memories that show the same pixels are equal. -/
theorem crossingLinesAgree : Obligations.CrossingLinesAgree := by
  intro a0 b0 a1 b1 c0 d0 c1 d1 color color' x y s t u t' u' hs hst herrt htu herru hst' htu' _ hon
  have hcfg := (exec_keeps_parameters hst).1
  have hcfg' := (exec_keeps_parameters hst').1
  have ht := hs.after_exec hst
  have ht' := hs.after_exec hst'
  have hfirst := (drawline_success hst herrt).1
  have hsecond := (drawline_success htu herru).1
  rw [hcfg] at hsecond
  refine ⟨?_, ?_⟩
  · rw [pixel_drawline ht hcfg hsecond htu (hsecond.inRange_of_onLine hon), if_pos hon,
      legalColor_setWidth hsecond.colour]
  · rintro rfl
    have hcfgu := (exec_keeps_parameters htu).1.trans hcfg
    have hcfgu' := (exec_keeps_parameters htu').1.trans hcfg'
    refine vram_ext hs.cfgWf (hcfgu ▸ (ht.after_exec htu).vramWf) (hcfgu' ▸ (ht'.after_exec htu').vramWf)
      fun px py hr => ?_
    rw [pixel_drawline ht hcfg hsecond htu hr, pixel_drawline hs rfl hfirst hst hr,
      pixel_drawline ht' hcfg' hfirst htu' hr, pixel_drawline hs rfl hsecond hst' hr]
    split_ifs <;> rfl

/-- Settles O41: the conditions of R101 are exhaustive and exclusive, and the paths are the two supported shapes. -/
theorem lineClassification : Obligations.LineClassification := by
  intro x0 y0 x1 y1
  refine ⟨lineClass_eq_iff, lineClass_eq_iff, lineClass_eq_iff, lineClass_eq_iff, lineClass_eq_iff, lineClass_eq_iff,
    ?_, fun color s => ⟨?_, ?_⟩⟩
  · simp only [lineClass_eq_iff, LineClass.condition, supportedLine]
    omega
  · rintro ⟨rfl, -⟩
    exact lineEffect_vertical x0 y0 y1 color s
  · rintro ⟨rfl, hx⟩
    exact lineEffect_horizontal hx y0 color s

/-- Settles O46: for a point the checks, the reach and the effect are those of SETPIXEL. -/
theorem pointLineIsSetpixel : Obligations.PointLineIsSetpixel := by
  intro x y color s
  have hcheck : checkPart (.drawline x y x y color) s = checkPart (.setpixel x y color) s := by
    simp [checkPart]
  have heffect : effectPart (.drawline x y x y color) s = effectPart (.setpixel x y color) s :=
    lineEffect_point x.toNat y.toNat color s
  rw [exec_eq_command, exec_eq_command, hcheck, heffect]
  rfl

end Sys2Proof.Machine
end

section
/-! SUPPORT. Glyphs and strings (spec/43_glyph_text.md): what painted dots show (R96), the cells of a glyph and of a
string (R111, R115), the answer of the scan (R113), the outcomes of DRAWGLYPH and DRAWSTRING (R110, R113), and commands
one after another as the effect part they make up (R114, R116). -/

namespace Sys2Proof.Machine

/-! ### What painted dots show -/

/-- Dots that lie at one coordinate have one colour. -/
def OneColour (dots : List Dot) : Prop := ∀ d ∈ dots, ∀ e ∈ dots, d.1 = e.1 ∧ d.2.1 = e.2.1 → d.2.2 = e.2.2

/-- Where each coordinate has one colour, every dot shows. -/
theorem Paints.pixel_of_mem {s t : State} {ds : List Dot} {a : Nat} (h : Paints s t ds a)
    (hs : Inv s) (hlegal : ∀ d ∈ ds, Dot.legal s.cfg d) (hone : OneColour ds) {x y : Nat} {k : Byte}
    (hmem : (x, y, k) ∈ ds) : (pixel s.cfg t.vram x y).toNat = k.toNat := by
  have hlast : lastDot x y ds = some k :=
    lastDot_some (fun d hd hat => hone d hd _ hmem ⟨hat.1.symm, hat.2.symm⟩) ⟨_, hmem, rfl, rfl⟩
  rw [h.vram, pixel_paintAll hs.cfgWf hlegal hs.vramWf (hlegal _ hmem).1, hlast]
  exact legalColor_setWidth (hlegal _ hmem).2

/-- A pixel at which no dot lies is as before. -/
theorem Paints.pixel_of_no_dot {s t : State} {ds : List Dot} {a : Nat} (h : Paints s t ds a)
    (hs : Inv s) (hlegal : ∀ d ∈ ds, Dot.legal s.cfg d) {x y : Nat} (hr : inRange s.cfg x y)
    (hno : ∀ d ∈ ds, ¬ (x = d.1 ∧ y = d.2.1)) : pixel s.cfg t.vram x y = pixel s.cfg s.vram x y := by
  rw [h.vram, pixel_paintAll hs.cfgWf hlegal hs.vramWf hr, lastDot_none hno]

/-- A byte in which no dot lies is as before. -/
theorem Paints.read_of_no_dot {s t : State} {ds : List Dot} {a : Nat} (h : Paints s t ds a)
    (hs : Inv s) {b : Nat} (hno : ∀ d ∈ ds, b ≠ off s.cfg d.1 d.2.1) : t.vram.read b = s.vram.read b := by
  rw [h.vram, read_paintAll_of_ne (Memory.wf_of_wfSized hs.vramWf) hno]

/-! ### Cells -/

theorem mem_glyphDots {g : Glyph} {x y : Nat} {fg bg : Byte} {d : Dot} :
    d ∈ glyphDots g x y fg bg ↔ ∃ r k, r < 8 ∧ k < 8 ∧ d = (x + k, y + r, gcol g r k fg bg) := by
  simp only [glyphDots, List.mem_flatMap, List.mem_range, List.mem_singleton, exists_and_left]

theorem mem_stringDots {c : Config} {p x y n : Nat} {fg bg : Byte} {d : Dot} :
    d ∈ stringDots c p x y n fg bg ↔
      ∃ i, i < n ∧ d ∈ glyphDots (fglyph c (textRead c (p + i)).toNat) (x + 8 * i) y fg bg := by
  simp only [stringDots, List.mem_flatMap, List.mem_range]

/-- A dot of a glyph lies in its box. -/
theorem inBox_of_mem_glyphDots {g : Glyph} {x y : Nat} {fg bg : Byte} {d : Dot} (hd : d ∈ glyphDots g x y fg bg) :
    inBox x y d.1 d.2.1 := by
  obtain ⟨r, k, hrow, hcol, rfl⟩ := mem_glyphDots.1 hd
  exact ⟨⟨Nat.le_add_right x k, Nat.add_le_add_left (Nat.le_of_lt_succ hcol) x⟩,
    Nat.le_add_right y r, Nat.add_le_add_left (Nat.le_of_lt_succ hrow) y⟩

/-- The 64 cells of a glyph are different coordinates (R114). -/
theorem oneColour_glyphDots (g : Glyph) (x y : Nat) (fg bg : Byte) : OneColour (glyphDots g x y fg bg) := by
  intro d hd e he hat
  obtain ⟨r, k, -, -, rfl⟩ := mem_glyphDots.1 hd
  obtain ⟨r', k', -, -, rfl⟩ := mem_glyphDots.1 he
  obtain rfl : k = k' := Nat.add_left_cancel hat.1
  obtain rfl : r = r' := Nat.add_left_cancel hat.2
  rfl

/-- The boxes of a string do not overlap (R113). -/
theorem oneColour_stringDots (c : Config) (p x y n : Nat) (fg bg : Byte) :
    OneColour (stringDots c p x y n fg bg) := by
  intro d hd e he hat
  obtain ⟨i, -, hd⟩ := mem_stringDots.1 hd
  obtain ⟨i', -, he⟩ := mem_stringDots.1 he
  obtain rfl : i = i' := by
    obtain ⟨hcol, -⟩ := inBox_of_mem_glyphDots hd
    obtain ⟨hcol', -⟩ := inBox_of_mem_glyphDots he
    omega
  exact oneColour_glyphDots _ _ _ fg bg d hd e he hat

/-- The rows of a font glyph are its font bytes (R115). -/
theorem glyphRow_fglyph (c : Config) (code : Nat) {r : Nat} (hr : r < 8) :
    glyphRow (fglyph c code) r = fontRead c ((code - 32) * 8 + r) := by
  interval_cases r <;> rfl

/-! ### The scan of a string -/

/-- Characters that pass have their boxes on the surface, so there are at most `floor(W / 8)` of them (R150). -/
theorem count_le_of_charPasses {c : Config} {p x y n : Nat} (h : ∀ k, k < n → charPasses c p x y k) :
    n ≤ c.width / 8 := by
  cases n with
  | zero => exact Nat.zero_le _
  | succ n =>
    obtain ⟨-, ⟨hbox, -⟩, -⟩ := h n n.lt_succ_self
    omega

/-- The scan goes past characters that pass (R113). -/
theorem scanFrom_of_charPasses {c : Config} {p x y n : Nat} (fuel : Nat) (h : ∀ k, k < n → charPasses c p x y k) :
    scanFrom c p x y (fuel + n) 0 = scanFrom c p x y fuel n := by
  induction n generalizing fuel with
  | zero => rfl
  | succ n ih =>
    obtain ⟨hchar, hbox, hcov⟩ : textRead c (p + n) ≠ 0#8 ∧ boxInRange c (x + 8 * n) y ∧
      covered (textRead c (p + n)).toNat := h n n.lt_succ_self
    rw [Nat.add_left_comm fuel n 1, Nat.add_comm n, ih (fuel + 1) fun k hk => h k (by omega), scanFrom_succ,
      if_neg hchar, if_neg (not_not.2 hbox), if_neg (not_not.2 hcov)]

/-- The scan looks at the first character that does not pass (R113, R150). -/
theorem exists_scanString_eq_scanFrom {c : Config} {p x y n : Nat} (h : ∀ k, k < n → charPasses c p x y k) :
    ∃ fuel, scanString c p x y = scanFrom c p x y (fuel + 1) n := by
  obtain ⟨fuel, hfuel⟩ := Nat.exists_eq_add_of_le' (count_le_of_charPasses h)
  refine ⟨fuel, ?_⟩
  rw [scanString, hfuel, Nat.add_right_comm]
  exact scanFrom_of_charPasses (fuel + 1) h

/-- A string in the sense of R113 is found by a clean scan. -/
theorem scanString_of_stringOf {c : Config} {p x y n : Nat} (h : stringOf c p x y n) :
    scanString c p x y = .clean n := by
  obtain ⟨fuel, hscan⟩ := exists_scanString_eq_scanFrom h.1
  rw [hscan, scanFrom_succ, if_pos h.2]

/-- The error of a character that fails the scan: its range before its coverage (R113). -/
def charError (c : Config) (x y n : Nat) : ErrorKind :=
  if boxInRange c (x + 8 * n) y then .invalidCharacter else .addressOutOfRange

/-- The scan answers with the error of the first character that fails (R113). -/
theorem scanString_of_stringFailsAt {c : Config} {p x y n : Nat} (h : stringFailsAt c p x y n) :
    scanString c p x y = .raises (charError c x y n) := by
  obtain ⟨hpass, hchar, hfail⟩ := h
  obtain ⟨fuel, hscan⟩ := exists_scanString_eq_scanFrom hpass
  rw [hscan, scanFrom_succ, if_neg hchar, charError]
  by_cases hbox : boxInRange c (x + 8 * n) y
  · have hcov : ¬ covered (textRead c (p + n)).toNat := fun hcov => hfail ⟨hchar, hbox, hcov⟩
    rw [if_neg (not_not.2 hbox), if_pos hcov, if_pos hbox]
  · rw [if_pos hbox, if_neg hbox]

/-! ### Outcomes -/

/-- A DRAWGLYPH with its box on the surface and legal colours completes (R110). -/
theorem exec_drawglyph {s : State} (hc : s.cfg.wf = true) (g : Glyph) {x y : Half}
    (hr : boxInRange s.cfg x.toNat y.toNat) {fg bg : Byte} (hfg : legalColor fg) (hbg : legalColor bg) :
    exec (.drawglyph g x y fg bg) s = .next (complete (glyphBody g x.toNat y.toNat fg bg s)) :=
  exec_completes (checkPart_drawglyph_none.2 ⟨hr, hfg, hbg⟩) fun _ ha => Option.some.inj ha ▸ off_lt hc hr

/-- A DRAWSTRING of `n` characters that all pass, with legal colours, completes (R113). -/
theorem exec_drawstring {s : State} (hc : s.cfg.wf = true) {p x y : Half} {n : Nat}
    (h : stringOf s.cfg p.toNat x.toNat y.toNat n) {fg bg : Byte} (hfg : legalColor fg) (hbg : legalColor bg) :
    exec (.drawstring p x y fg bg) s =
      .next (complete (forUp (stringChar p.toNat x.toNat y.toNat fg bg) 0 n s)) := by
  have hscan := scanString_of_stringOf h
  have hreach : ∀ a, reachPart (.drawstring p x y fg bg) s = some a → a < s.cfg.surfaceBytes := by
    simp only [reachPart, hscan, scan_count_clean]
    cases n with
    | zero => exact fun _ ha => nomatch ha
    | succ n =>
      obtain ⟨-, hbox, -⟩ := h.1 n n.lt_succ_self
      exact fun _ ha => Option.some.inj ha ▸ off_lt hc hbox
  rw [exec_completes (checkPart_drawstring_none.2 ⟨⟨n, hscan⟩, hfg, hbg⟩) hreach]
  simp only [effectPart, hscan, scan_count_clean]

/-- A DRAWSTRING raises the error its scan ends in (R113). -/
theorem exec_drawstring_of_scan_raises {s : State} {p x y : Half} {k : ErrorKind}
    (h : scanString s.cfg p.toNat x.toNat y.toNat = .raises k) (fg bg : Byte) :
    exec (.drawstring p x y fg bg) s = .next { s with err := k.code } :=
  exec_raises (by simp only [checkPart, h, stringCheck, scan_error_raises])

/-! ### Commands one after another -/

/-- From `s` the commands all end with result 0, and together have the effect part `effect`. -/
structure RunsAs (is : List Instr) (effect : State → State) (s : State) : Prop where
  safe : safeRun is s
  run : execAll is s = .next (complete (effect s))

/-- One command that completes. -/
theorem runsAs_singleton {i : Instr} {effect : State → State} {s : State}
    (h : exec i s = .next (complete (effect s))) : RunsAs [i] effect s :=
  ⟨(safeRun_cons_of_next h []).2 ⟨rfl, safeRun_nil _⟩, execAll_cons_of_next h []⟩

/-- Commands, then commands whose effect part does not look at `ERR`. -/
theorem RunsAs.append {is js : List Instr} {effect effect' : State → State} {s : State} (h : RunsAs is effect s)
    (h' : RunsAs js effect' (complete (effect s)))
    (hcomplete : effect' (complete (effect s)) = complete (effect' (effect s))) :
    RunsAs (is ++ js) (fun s => effect' (effect s)) s where
  safe := safeRun_append_of_next h.run h.safe h'.safe
  run := by
    rw [execAll_append_of_next h.run, h'.run, hcomplete]
    rfl

/-- A loop of at least one body, where the commands of each value of the loop variable have the effect part of its
body. -/
theorem runsAs_forUp {is : Nat → List Instr} {body : Nat → State → State} (a n : Nat) {s : State}
    (hport : ∀ i t, PortOnly t (body i t)) (hcomplete : ∀ i t, body i (complete t) = complete (body i t))
    (h : ∀ i t, i ≤ a + n → t.cfg = s.cfg → RunsAs (is i) (body i) t) :
    RunsAs ((List.range' a (n + 1)).flatMap is) (forUp body a (n + 1)) s := by
  induction n with
  | zero => rw [List.range'_one, List.flatMap_singleton]; exact h a s le_rfl rfl
  | succ n ih =>
    have hinit := ih fun i t hi => h i t (by omega)
    have hlast := h (a + (n + 1)) (complete (forUp body a (n + 1) s)) le_rfl (portOnly_forUp hport a (n + 1) s).cfg
    rw [List.range'_concat, List.flatMap_append, Nat.one_mul, List.flatMap_singleton,
      funext (forUp_snoc body a (n + 1))]
    exact hinit.append hlast (hcomplete _ _)

/-- A loop does not look at `ERR` if its bodies do not. -/
theorem forUp_complete {body : Nat → State → State} (h : ∀ i t, body i (complete t) = complete (body i t))
    (a n : Nat) (s : State) : forUp body a n (complete s) = complete (forUp body a n s) := by
  induction n generalizing a s with
  | zero => rfl
  | succ n ih => rw [forUp_succ, forUp_succ, h, ih]

/-- The cells of one row of a glyph, left to right (R114). -/
def glyphRowEffect (g : Glyph) (x y : Nat) (fg bg : Byte) (r : Nat) : State → State :=
  forUp (fun k => pixelEffect (x + k) (y + r) (gcol g r k fg bg)) 0 8

/-- A glyph body is its eight rows, top to bottom (R114). -/
theorem glyphBody_eq_rows (g : Glyph) (x y : Nat) (fg bg : Byte) :
    glyphBody g x y fg bg = forUp (glyphRowEffect g x y fg bg) 0 8 := rfl

theorem portOnly_glyphRowEffect (g : Glyph) (x y : Nat) (fg bg : Byte) (r : Nat) (s : State) :
    PortOnly s (glyphRowEffect g x y fg bg r s) :=
  portOnly_forUp (fun _ => portOnly_pixelEffect _ _ _) 0 8 s

theorem pixelEffect_complete (x y : Nat) (k : Byte) (s : State) :
    pixelEffect x y k (complete s) = complete (pixelEffect x y k s) := rfl

theorem glyphRowEffect_complete (g : Glyph) (x y : Nat) (fg bg : Byte) (r : Nat) (s : State) :
    glyphRowEffect g x y fg bg r (complete s) = complete (glyphRowEffect g x y fg bg r s) :=
  forUp_complete (fun _ => pixelEffect_complete _ _ _) 0 8 s

theorem glyphBody_complete (g : Glyph) (x y : Nat) (fg bg : Byte) (s : State) :
    glyphBody g x y fg bg (complete s) = complete (glyphBody g x y fg bg s) := by
  rw [glyphBody_eq_rows]
  exact forUp_complete (glyphRowEffect_complete g x y fg bg) 0 8 s

theorem portOnly_stringChar (p x y : Nat) (fg bg : Byte) (i : Nat) (s : State) :
    PortOnly s (stringChar p x y fg bg i s) := portOnly_glyphBody _ _ _ fg bg s

/-- The number of a column or a row below the surface's bound fits its operand's field (R7). -/
theorem toNat_ofNat_of_inRange {c : Config} (hc : c.wf = true) {x y : Nat} (hr : inRange c x y) :
    (BitVec.ofNat 16 x).toNat = x ∧ (BitVec.ofNat 16 y).toNat = y := by
  obtain ⟨-, -, hwidth, -, hheight, -⟩ := cfg_bounds hc
  obtain ⟨hx, hy⟩ := hr
  exact ⟨Nat.mod_eq_of_lt (by omega), Nat.mod_eq_of_lt (by omega)⟩

/-- The SETPIXEL of one cell of a glyph (R114). -/
def cellSetpixel (g : Glyph) (x y : Nat) (fg bg : Byte) (r k : Nat) : Instr :=
  .setpixel (BitVec.ofNat 16 (x + k)) (BitVec.ofNat 16 (y + r)) (gcol g r k fg bg)

/-- The SETPIXEL of a cell in range has the effect part of the cell. -/
theorem cellSetpixel_runsAs {s : State} (hc : s.cfg.wf = true) (g : Glyph) {x y r k : Nat}
    (hr : inRange s.cfg (x + k) (y + r)) {fg bg : Byte} (hfg : legalColor fg) (hbg : legalColor bg) :
    RunsAs [cellSetpixel g x y fg bg r k] (pixelEffect (x + k) (y + r) (gcol g r k fg bg)) s := by
  obtain ⟨hx, hy⟩ := toNat_ofNat_of_inRange hc hr
  have hexec := exec_setpixel hc (x := BitVec.ofNat 16 (x + k)) (y := BitVec.ofNat 16 (y + r))
    (by rwa [hx, hy]) (legalColor_gcol g r k hfg hbg)
  rw [hx, hy] at hexec
  exact runsAs_singleton hexec

/-- The 64 SETPIXELs of a glyph's cells have the effect part of the glyph body (R114). -/
theorem cellSetpixels_runAs {s : State} (hc : s.cfg.wf = true) (g : Glyph) {x y : Nat} (hr : boxInRange s.cfg x y)
    {fg bg : Byte} (hfg : legalColor fg) (hbg : legalColor bg) :
    RunsAs ((List.range 8).flatMap fun r => (List.range 8).map (cellSetpixel g x y fg bg r))
      (glyphBody g x y fg bg) s := by
  obtain ⟨hx, hy⟩ := hr
  rw [glyphBody_eq_rows, List.range_eq_range']
  refine runsAs_forUp 0 7 (portOnly_glyphRowEffect g x y fg bg) (glyphRowEffect_complete g x y fg bg)
    fun r t hrow ht => ?_
  rw [List.map_eq_flatMap]
  refine runsAs_forUp 0 7 (fun _ => portOnly_pixelEffect _ _ _) (fun _ => pixelEffect_complete _ _ _)
    fun k u hcol hu => ?_
  have hcfg : u.cfg = s.cfg := hu.trans ht
  exact cellSetpixel_runsAs (hcfg ▸ hc) g (hcfg ▸ ⟨by omega, by omega⟩) hfg hbg

/-- The DRAWGLYPH of character `i` of a string (R116). -/
def charDrawglyph (c : Config) (p x : Nat) (y : Half) (fg bg : Byte) (i : Nat) : Instr :=
  .drawglyph (fglyph c (textRead c (p + i)).toNat) (BitVec.ofNat 16 (x + 8 * i)) y fg bg

/-- The DRAWGLYPHs of the characters of a string have the effect part of the DRAWSTRING (R116). -/
theorem charDrawglyphs_runAs {s : State} (hc : s.cfg.wf = true) {p x n : Nat} {y : Half}
    (hbox : ∀ i, i < n + 1 → boxInRange s.cfg (x + 8 * i) y.toNat) {fg bg : Byte} (hfg : legalColor fg)
    (hbg : legalColor bg) :
    RunsAs ((List.range (n + 1)).map (charDrawglyph s.cfg p x y fg bg))
      (forUp (stringChar p x y.toNat fg bg) 0 (n + 1)) s := by
  simp only [List.range_eq_range', List.map_eq_flatMap]
  refine runsAs_forUp 0 n (portOnly_stringChar p x y.toNat fg bg)
    (fun i t => glyphBody_complete (fglyph t.cfg (textRead t.cfg (p + i)).toNat) _ _ fg bg t)
    fun i t hi ht => runsAs_singleton ?_
  obtain ⟨hx, hy⟩ := hbox i (by omega)
  have hcol := (toNat_ofNat_of_inRange hc (x := x + 8 * i) (y := y.toNat) ⟨by omega, by omega⟩).1
  have hexec := exec_drawglyph (ht ▸ hc) (fglyph t.cfg (textRead t.cfg (p + i)).toNat)
    (x := BitVec.ofNat 16 (x + 8 * i)) (y := y) (by rw [ht, hcol]; exact ⟨hx, hy⟩) hfg hbg
  rw [hcol, ht] at hexec
  simpa only [charDrawglyph, stringChar, Config.advance, ht] using hexec

end Sys2Proof.Machine
end

section
/-! CLAIMS. The statements of spec/43_glyph_text.md. -/

namespace Sys2Proof.Machine

/-- Settles O51: the box is checked before the colours, and with both in order the glyph body paints its 64 cells. -/
theorem drawglyphPaintsItsBox : Obligations.DrawglyphPaintsItsBox := by
  intro g x y fg bg s hs
  split
  · next hout =>
    have hnot : ¬ boxInRange s.cfg x.toNat y.toNat := by
      unfold boxInRange
      omega
    refine exec_raises (k := .addressOutOfRange) ?_
    simp only [checkPart, firstError_cons, hnot, not_false_eq_true, decide_true, if_true]
  · next hin =>
    have hr : boxInRange s.cfg x.toNat y.toNat := ⟨by omega, by omega⟩
    split
    · next hbad =>
      have hnot : ¬ (legalColor fg ∧ legalColor bg) := by
        unfold legalColor
        omega
      exact exec_raises (k := .invalidColor) (by simp [checkPart, hr, hnot])
    · next hlegal =>
      have hfg : legalColor fg := by omega
      have hbg : legalColor bg := by omega
      have hdraws := draws_glyphBody g x.toNat y.toNat fg bg s hs.cfgWf hr
      have hpaints := hdraws.paints
      have hdots := glyphDots_legal g hr hfg hbg
      refine ⟨_, exec_drawglyph hs.cfgWf g hr hfg hbg, hdraws.leaves, fun r k hrow hcol => ?_,
        fun px py hp hout => ?_, fun a ha => ?_⟩
      · exact hpaints.pixel_of_mem hs hdots (oneColour_glyphDots g _ _ fg bg) (mem_glyphDots.2 ⟨r, k, hrow, hcol, rfl⟩)
      · refine hpaints.pixel_of_no_dot hs hdots hp ?_
        rintro d hd ⟨rfl, rfl⟩
        exact hout (inBox_of_mem_glyphDots hd)
      · refine hpaints.read_of_no_dot hs fun d hd => ?_
        obtain ⟨r, k, hrow, hcol, rfl⟩ := mem_glyphDots.1 hd
        exact ha r k hrow hcol

/-- Settles O52: the SETPIXELs have, cell for cell, the effect part of the DRAWGLYPH. -/
theorem drawglyphEqualsItsSetpixels : Obligations.DrawglyphEqualsItsSetpixels := by
  intro g x y fg bg s t hs hexec herr
  obtain ⟨hok, -, rfl⟩ := exec_success hexec herr
  obtain ⟨hr, hfg, hbg⟩ := checkPart_drawglyph_none.1 hok
  obtain ⟨hsafe, hrun⟩ := cellSetpixels_runAs hs.cfgWf g hr hfg hbg
  exact ⟨hsafe, hrun⟩

/-- Settles O54: the scan of such a string is clean, and its characters paint the cells of boxes that do not overlap. -/
theorem drawstringPaintsItsBoxes : Obligations.DrawstringPaintsItsBoxes := by
  intro p x y fg bg n s hs hstring hfg hbg
  have hexec := exec_drawstring hs.cfgWf hstring hfg hbg
  refine ⟨?_, fun hn => ?_⟩
  · rintro rfl
    exact hexec
  · obtain ⟨m, rfl⟩ := Nat.exists_eq_add_of_le' hn
    have hbox : ∀ i, i < m + 1 → boxInRange s.cfg (x.toNat + 8 * i) y.toNat := fun i hi => (hstring.1 i hi).2.1
    have hdraws := draws_stringChars hs.cfgWf (p := p.toNat) fg bg hbox
    have hpaints := hdraws.paints
    have hdots := stringDots_legal (p := p.toNat) hbox hfg hbg
    refine ⟨_, hexec, hdraws.leaves, fun i r k hi hrow hcol => ?_, fun px py hp hout => ?_, fun a ha => ?_⟩
    · rw [← glyphRow_fglyph _ _ hrow]
      exact hpaints.pixel_of_mem hs hdots (oneColour_stringDots _ _ _ _ _ fg bg)
        (mem_stringDots.2 ⟨i, hi, mem_glyphDots.2 ⟨r, k, hrow, hcol, rfl⟩⟩)
    · refine hpaints.pixel_of_no_dot hs hdots hp ?_
      rintro d hd ⟨rfl, rfl⟩
      obtain ⟨i, hi, hd⟩ := mem_stringDots.1 hd
      exact hout i hi (inBox_of_mem_glyphDots hd)
    · refine hpaints.read_of_no_dot hs fun d hd => ?_
      obtain ⟨i, hi, hd⟩ := mem_stringDots.1 hd
      obtain ⟨r, k, hrow, hcol, rfl⟩ := mem_glyphDots.1 hd
      exact ha i r k hi hrow hcol

/-- Settles O55: the scan answers for the first character that fails, and only a clean scan leaves the colours to be
looked at. -/
theorem drawstringReportsTheFirstFailure : Obligations.DrawstringReportsTheFirstFailure := by
  intro p x y fg bg s _
  refine ⟨fun n hfails => ?_, fun n hstring hbad => ?_⟩
  · have hcode : (charError s.cfg x.toNat y.toNat n).code =
        if s.cfg.width ≤ x.toNat + 8 * n + 7 ∨ s.cfg.height ≤ y.toNat + 7 then 1#3 else 3#3 := by
      unfold charError boxInRange
      split_ifs
      · omega
      · rfl
      · rfl
      · omega
    rw [exec_drawstring_of_scan_raises (scanString_of_stringFailsAt hfails), hcode]
  · have hnot : ¬ (legalColor fg ∧ legalColor bg) := by
      unfold legalColor
      omega
    refine exec_raises (k := .invalidColor) ?_
    simp only [checkPart, scanString_of_stringOf hstring, stringCheck, scan_error_clean, firstError_cons, hnot,
      not_false_eq_true, decide_true, if_true]

/-- Settles O56: the DRAWGLYPHs have, character for character, the effect part of the DRAWSTRING. -/
theorem drawstringEqualsItsDrawglyphs : Obligations.DrawstringEqualsItsDrawglyphs := by
  intro p x y fg bg n s t hs hn hstring hexec herr
  obtain ⟨hok, -, -⟩ := exec_success hexec herr
  obtain ⟨-, hfg, hbg⟩ := checkPart_drawstring_none.1 hok
  obtain ⟨m, rfl⟩ := Nat.exists_eq_add_of_le' hn
  obtain ⟨hsafe, hrun⟩ := charDrawglyphs_runAs hs.cfgWf (p := p.toNat) (y := y)
    (fun i hi => (hstring.1 i hi).2.1) hfg hbg
  exact ⟨hsafe, hrun.trans ((exec_drawstring hs.cfgWf hstring hfg hbg).symm.trans hexec)⟩

end Sys2Proof.Machine
end

section
/-! SUPPORT. What makes a command raise (spec/60_exceptions.md rules R120 to R128): its result is told by its check
part, and its check part raises a kind exactly where the check for that kind fails and every check before it passes. -/

namespace Sys2Proof.Machine

/-! ### The result of a command is told by its check part -/

/-- The value of `ERR` that a check part leads to (R23, R120). -/
def resultCode : Option ErrorKind → BitVec 3
  | none => okCode
  | some k => k.code

theorem exec_err {i : Instr} {s t : State} (h : exec i s = .next t) : t.err = resultCode (checkPart i s) := by
  rcases exec_cases h with ⟨k, hcheck, rfl⟩ | ⟨hcheck, -, rfl⟩ <;> rw [hcheck] <;> rfl

theorem resultCode_eq_code_iff {o : Option ErrorKind} {k : ErrorKind} : resultCode o = k.code ↔ o = some k := by
  cases o with
  | none => exact ⟨fun h => absurd h.symm (code_ne_zero k), fun h => nomatch h⟩
  | some j => exact ⟨fun h => congrArg some (code_injective h), fun h => congrArg ErrorKind.code (Option.some.inj h)⟩

/-- A command ends with the code of a kind exactly when its check part raises that kind. -/
theorem err_eq_code_iff {i : Instr} {s t : State} (h : exec i s = .next t) {k : ErrorKind} :
    t.err = k.code ↔ checkPart i s = some k := by
  rw [exec_err h, resultCode_eq_code_iff]

/-- No rule writes 7 to `ERR` (R23). -/
theorem resultCode_ne_seven (o : Option ErrorKind) : resultCode o ≠ 7#3 := by
  cases o with
  | none => decide
  | some k => cases k <;> decide

/-- All that a command can do when it does not end with 0 (R129). -/
theorem exec_failure {i : Instr} {s t : State} (h : exec i s = .next t) (herr : t.err ≠ 0#3) :
    ∃ k, checkPart i s = some k ∧ t = raise k s := by
  rcases exec_cases h with hraises | ⟨-, -, rfl⟩
  · exact hraises
  · exact absurd rfl herr

/-- A command that does not end with 0 changes nothing but `ERR` (R129). -/
theorem eq_with_err_of_exec_failure {i : Instr} {s t : State} (h : exec i s = .next t) (herr : t.err ≠ 0#3) :
    t = { s with err := t.err } := by
  obtain ⟨k, -, rfl⟩ := exec_failure h herr
  rfl

/-- With a configuration of the hardware every command answers a next state: where its checks pass, its reach lies
inside `VRAM` (R53). -/
theorem exec_answers {s : State} (hc : s.cfg.wf = true) (i : Instr) : ∃ t, exec i s = .next t := by
  cases hcheck : checkPart i s with
  | some k => exact ⟨_, exec_raises hcheck⟩
  | none =>
    cases i with
    | setaddr a =>
      exact ⟨_, exec_completes hcheck fun _ ha => Option.some.inj ha ▸ checkPart_setaddr_none.1 hcheck⟩
    | setstep n => exact ⟨_, rfl⟩
    | wrbyte v => exact ⟨_, exec_wrbyte (checkPart_wrbyte_none.1 hcheck) v⟩
    | rmw m v =>
      obtain ⟨haddr, hstep⟩ := checkPart_rmw_none.1 hcheck
      exact ⟨_, exec_rmw haddr hstep m v⟩
    | clear color => exact ⟨_, exec_clear hc (checkPart_clear_none.1 hcheck)⟩
    | setpixel x y color =>
      obtain ⟨hr, hk⟩ := checkPart_setpixel_none.1 hcheck
      exact ⟨_, exec_setpixel hc hr hk⟩
    | drawline x0 y0 x1 y1 color =>
      exact ⟨_, exec_drawline hc (checkPart_drawline_none_iff_drawable.1 hcheck)⟩
    | drawglyph g x y fg bg =>
      obtain ⟨hr, hfg, hbg⟩ := checkPart_drawglyph_none.1 hcheck
      exact ⟨_, exec_drawglyph hc g hr hfg hbg⟩
    | drawstring p x y fg bg =>
      obtain ⟨⟨n, hscan⟩, hfg, hbg⟩ := checkPart_drawstring_none.1 hcheck
      exact ⟨_, exec_drawstring hc (stringOf_of_scanString_clean hscan) hfg hbg⟩

/-! ### What a check part looks at -/

/-- The scan does not look at `FONT` (R120). -/
theorem scanFrom_congr {c c' : Config} (hwidth : c.width = c'.width) (hheight : c.height = c'.height)
    (htext : c.text = c'.text) (p x y fuel n : Nat) : scanFrom c p x y fuel n = scanFrom c' p x y fuel n := by
  obtain ⟨width, height, font, text⟩ := c
  obtain ⟨width', height', font', text'⟩ := c'
  obtain rfl : width = width' := hwidth
  obtain rfl : height = height' := hheight
  obtain rfl : text = text' := htext
  induction fuel generalizing n with
  | zero => rfl
  | succ fuel ih =>
    rw [scanFrom_succ, scanFrom_succ, ih (n + 1)]
    rfl

/-- A check part looks at nothing but `ADDR`, `STEP`, `W`, `H` and `TEXT` (R120). -/
theorem checkPart_congr_inputs {s s' : State} (haddr : s.addr = s'.addr) (hstep : s.stepReg = s'.stepReg)
    (hwidth : s.cfg.width = s'.cfg.width) (hheight : s.cfg.height = s'.cfg.height)
    (htext : s.cfg.text = s'.cfg.text) (i : Instr) : checkPart i s = checkPart i s' := by
  have hsize : s.cfg.surfaceBytes = s'.cfg.surfaceBytes := by
    simp only [Config.surfaceBytes, Config.rowBytes, hwidth, hheight]
  have hrange : ∀ x y, inRange s.cfg x y ↔ inRange s'.cfg x y := fun x y => by rw [inRange, inRange, hwidth, hheight]
  have hscan : ∀ p x y, scanString s.cfg p x y = scanString s'.cfg p x y := fun p x y => by
    rw [scanString, scanString, hwidth]
    exact scanFrom_congr hwidth hheight htext p x y _ 0
  cases i with
  | setstep | clear => rfl
  | setaddr | wrbyte | rmw => simp only [checkPart, hsize, haddr, hstep]
  | setpixel | drawline => simp only [checkPart, hrange]
  | drawglyph => simp only [checkPart, boxInRange, hrange]
  | drawstring => simp only [checkPart, hscan]

/-- Raising leaves all that a check part looks at (R129). -/
theorem checkPart_raise (k : ErrorKind) (i : Instr) (s : State) : checkPart i (raise k s) = checkPart i s :=
  checkPart_congr_inputs (s := raise k s) (s' := s) rfl rfl rfl rfl rfl i

/-! ### Strings -/

/-- Every string either ends after characters that all pass, or has a first character that fails (R113, R150). -/
theorem exists_stringOf_or_stringFailsAt (c : Config) (p x y : Nat) :
    (∃ n, stringOf c p x y n) ∨ ∃ n, stringFailsAt c p x y n := by
  classical
  have hstops : ∃ n, ¬ charPasses c p x y n := by
    by_contra hall
    have hle := count_le_of_charPasses (n := c.width / 8 + 1) fun k _ => not_not.1 (not_exists.1 hall k)
    omega
  have hpass : ∀ k, k < Nat.find hstops → charPasses c p x y k := fun k hk => not_not.1 (Nat.find_min hstops hk)
  by_cases hend : textRead c (p + Nat.find hstops) = 0#8
  · exact .inl ⟨_, hpass, hend⟩
  · exact .inr ⟨_, hpass, hend, Nat.find_spec hstops⟩

/-- The scan is clean exactly for the strings of R113. -/
theorem scanString_eq_clean_iff {c : Config} {p x y n : Nat} : scanString c p x y = .clean n ↔ stringOf c p x y n :=
  ⟨stringOf_of_scanString_clean, scanString_of_stringOf⟩

/-- The scan raises exactly the error of the first character that fails (R113). -/
theorem scanString_eq_raises_iff {c : Config} {p x y : Nat} {k : ErrorKind} :
    scanString c p x y = .raises k ↔ ∃ n, stringFailsAt c p x y n ∧ charError c x y n = k := by
  constructor
  · intro hscan
    rcases exists_stringOf_or_stringFailsAt c p x y with ⟨n, hstring⟩ | ⟨n, hfails⟩
    · rw [scanString_of_stringOf hstring] at hscan
      cases hscan
    · rw [scanString_of_stringFailsAt hfails] at hscan
      exact ⟨n, hfails, Scan.raises.inj hscan⟩
  · rintro ⟨n, hfails, rfl⟩
    exact scanString_of_stringFailsAt hfails

/-- The errors of a character that fails the scan (R113). -/
theorem charError_cases (c : Config) (x y n : Nat) :
    (boxInRange c (x + 8 * n) y ∧ charError c x y n = .invalidCharacter) ∨
      (¬ boxInRange c (x + 8 * n) y ∧ charError c x y n = .addressOutOfRange) := by
  by_cases hbox : boxInRange c (x + 8 * n) y
  · exact .inl ⟨hbox, if_pos hbox⟩
  · exact .inr ⟨hbox, if_neg hbox⟩

theorem charError_eq_addressOutOfRange {c : Config} {x y n : Nat} :
    charError c x y n = .addressOutOfRange ↔ ¬ boxInRange c (x + 8 * n) y := by
  rcases charError_cases c x y n with ⟨hbox, hkind⟩ | ⟨hbox, hkind⟩ <;> rw [hkind]
  · exact iff_of_false nofun (not_not.2 hbox)
  · exact iff_of_true rfl hbox

theorem charError_eq_invalidCharacter {c : Config} {x y n : Nat} :
    charError c x y n = .invalidCharacter ↔ boxInRange c (x + 8 * n) y := by
  rcases charError_cases c x y n with ⟨hbox, hkind⟩ | ⟨hbox, hkind⟩ <;> rw [hkind]
  · exact iff_of_true rfl hbox
  · exact iff_of_false nofun hbox

/-- A character that fails with its box on the surface lies outside the font (R115). -/
theorem not_covered_of_stringFailsAt {c : Config} {p x y n : Nat} (h : stringFailsAt c p x y n)
    (hbox : boxInRange c (x + 8 * n) y) : (textRead c (p + n)).toNat < 32 ∨ 95 < (textRead c (p + n)).toNat := by
  obtain ⟨-, hchar, hfail⟩ := h
  by_contra hin
  exact hfail ⟨hchar, hbox, by omega⟩

theorem charError_ne_invalidColor (c : Config) (x y n : Nat) : charError c x y n ≠ .invalidColor := by
  rcases charError_cases c x y n with ⟨-, hkind⟩ | ⟨-, hkind⟩ <;> rw [hkind] <;> nofun

/-! ### Conditions in the words of the spec -/

theorem not_inRange_iff {c : Config} {x y : Nat} : ¬ inRange c x y ↔ c.width ≤ x ∨ c.height ≤ y := by
  unfold inRange
  omega

theorem not_boxInRange_iff {c : Config} {x y : Nat} :
    ¬ boxInRange c x y ↔ c.width ≤ x + 7 ∨ c.height ≤ y + 7 :=
  not_inRange_iff

theorem not_legalColor_iff {color : Byte} : ¬ legalColor color ↔ 15 < color.toNat := Nat.not_le

theorem not_legalColors_iff {fg bg : Byte} : ¬ (legalColor fg ∧ legalColor bg) ↔ 15 < fg.toNat ∨ 15 < bg.toNat := by
  rw [not_and_or, not_legalColor_iff, not_legalColor_iff]

/-- A line with an end off the surface (R121). -/
theorem not_endsInRange_iff {c : Config} {x0 y0 x1 y1 : Nat} :
    ¬ (inRange c x0 y0 ∧ inRange c x1 y1) ↔ c.width ≤ x0 ∨ c.width ≤ x1 ∨ c.height ≤ y0 ∨ c.height ≤ y1 := by
  unfold inRange
  omega

theorem endsInRange_iff {c : Config} {x0 y0 x1 y1 : Nat} :
    inRange c x0 y0 ∧ inRange c x1 y1 ↔ x0 < c.width ∧ x1 < c.width ∧ y0 < c.height ∧ y1 < c.height := by
  unfold inRange
  omega

theorem supportedLine_iff {x0 y0 x1 y1 : Half} :
    supportedLine x0.toNat y0.toNat x1.toNat y1.toNat ↔
      (x0 = x1 ∧ y0.toNat ≤ y1.toNat) ∨ (y0 = y1 ∧ x0.toNat < x1.toNat) := by
  rw [supportedLine, BitVec.toNat_inj, BitVec.toNat_inj]

/-- A line that is not supported is diagonal or reversed (R101, R122). -/
theorem not_supportedLine_iff {x0 y0 x1 y1 : Half} :
    ¬ supportedLine x0.toNat y0.toNat x1.toNat y1.toNat ↔
      (x0 ≠ x1 ∧ y0 ≠ y1) ∨ (x0 = x1 ∧ y1.toNat < y0.toNat) ∨ (y0 = y1 ∧ x1.toNat < x0.toNat) := by
  simp only [supportedLine, ne_eq, ← BitVec.toNat_inj]
  omega

/-! ### Where the check part of each command raises -/

/-- A list of checks raises a kind where its first check fails and is of that kind, or passes and the rest raises it. -/
theorem firstError_cons_eq_some {p : Prop} [Decidable p] {j k : ErrorKind} {rest : List (Bool × ErrorKind)} :
    firstError ((decide p, j) :: rest) = some k ↔ (p ∧ j = k) ∨ (¬ p ∧ firstError rest = some k) := by
  by_cases hp : p <;> simp [hp]

/-- The same of the last check in a list. -/
theorem firstError_singleton_eq_some {p : Prop} [Decidable p] {j k : ErrorKind} :
    firstError [(decide p, j)] = some k ↔ p ∧ j = k := by
  by_cases hp : p <;> simp [hp]

section
variable {s : State} {k : ErrorKind}

theorem checkPart_setaddr_some {a : Half} :
    checkPart (.setaddr a) s = some k ↔ s.cfg.surfaceBytes ≤ a.toNat ∧ .addressOutOfRange = k :=
  firstError_singleton_eq_some

theorem checkPart_wrbyte_some {v : Byte} :
    checkPart (.wrbyte v) s = some k ↔ s.cfg.surfaceBytes ≤ s.addr.toNat ∧ .addressOutOfRange = k :=
  firstError_singleton_eq_some

theorem checkPart_rmw_some {m v : Byte} :
    checkPart (.rmw m v) s = some k ↔
      s.cfg.surfaceBytes ≤ s.addr.toNat ∧ .addressOutOfRange = k ∨
        s.addr.toNat < s.cfg.surfaceBytes ∧ s.stepReg ≠ 0#1 ∧ .stepNotZero = k := by
  rw [checkPart, firstError_cons_eq_some, firstError_singleton_eq_some, Nat.not_le]

theorem checkPart_clear_some {color : Byte} :
    checkPart (.clear color) s = some k ↔ ¬ legalColor color ∧ .invalidColor = k :=
  firstError_singleton_eq_some

theorem checkPart_setpixel_some {x y : Half} {color : Byte} :
    checkPart (.setpixel x y color) s = some k ↔
      ¬ inRange s.cfg x.toNat y.toNat ∧ .addressOutOfRange = k ∨
        inRange s.cfg x.toNat y.toNat ∧ ¬ legalColor color ∧ .invalidColor = k := by
  rw [checkPart, firstError_cons_eq_some, not_not, firstError_singleton_eq_some]

theorem checkPart_drawline_some {x0 y0 x1 y1 : Half} {color : Byte} :
    checkPart (.drawline x0 y0 x1 y1 color) s = some k ↔
      ¬ (inRange s.cfg x0.toNat y0.toNat ∧ inRange s.cfg x1.toNat y1.toNat) ∧ .addressOutOfRange = k ∨
        (inRange s.cfg x0.toNat y0.toNat ∧ inRange s.cfg x1.toNat y1.toNat) ∧
          (¬ supportedLine x0.toNat y0.toNat x1.toNat y1.toNat ∧ .unsupportedGeometry = k ∨
            supportedLine x0.toNat y0.toNat x1.toNat y1.toNat ∧ ¬ legalColor color ∧ .invalidColor = k) := by
  rw [checkPart, firstError_cons_eq_some, not_not, firstError_cons_eq_some, not_not, firstError_singleton_eq_some]

theorem checkPart_drawglyph_some {g : Glyph} {x y : Half} {fg bg : Byte} :
    checkPart (.drawglyph g x y fg bg) s = some k ↔
      ¬ boxInRange s.cfg x.toNat y.toNat ∧ .addressOutOfRange = k ∨
        boxInRange s.cfg x.toNat y.toNat ∧ ¬ (legalColor fg ∧ legalColor bg) ∧ .invalidColor = k := by
  rw [checkPart, firstError_cons_eq_some, not_not, firstError_singleton_eq_some]

theorem checkPart_drawstring_some {p x y : Half} {fg bg : Byte} :
    checkPart (.drawstring p x y fg bg) s = some k ↔
      (∃ n, stringFailsAt s.cfg p.toNat x.toNat y.toNat n ∧ charError s.cfg x.toNat y.toNat n = k) ∨
        (∃ n, stringOf s.cfg p.toNat x.toNat y.toNat n) ∧ ¬ (legalColor fg ∧ legalColor bg) ∧ .invalidColor = k := by
  simp only [checkPart, stringCheck, ← scanString_eq_raises_iff, ← scanString_eq_clean_iff]
  cases scanString s.cfg p.toNat x.toNat y.toNat with
  | clean n => simp only [scan_error_clean, firstError_singleton_eq_some, reduceCtorEq, false_or, Scan.clean.injEq,
      exists_eq', true_and]
  | raises j => simp only [scan_error_raises, Option.some.injEq, Scan.raises.injEq, reduceCtorEq, exists_false,
      false_and, or_false]

end

/-! ### The kinds a command can raise -/

/-- The kinds of error a command checks for, in the order of its checks (R121 to R125, R128). -/
def errorKinds : Instr → List ErrorKind
  | .setaddr _ => [.addressOutOfRange]
  | .setstep _ => []
  | .wrbyte _ => [.addressOutOfRange]
  | .rmw _ _ => [.addressOutOfRange, .stepNotZero]
  | .clear _ => [.invalidColor]
  | .setpixel _ _ _ => [.addressOutOfRange, .invalidColor]
  | .drawline _ _ _ _ _ => [.addressOutOfRange, .unsupportedGeometry, .invalidColor]
  | .drawglyph _ _ _ _ _ => [.addressOutOfRange, .invalidColor]
  | .drawstring _ _ _ _ _ => [.addressOutOfRange, .invalidCharacter, .invalidColor]

theorem firstError_mem {checks : List (Bool × ErrorKind)} {k : ErrorKind} (h : firstError checks = some k) :
    k ∈ checks.map Prod.snd := by
  induction checks with
  | nil => cases h
  | cons check rest ih =>
    obtain ⟨fails, j⟩ := check
    cases fails with
    | true => exact Option.some.inj h ▸ List.mem_cons_self
    | false => exact List.mem_cons_of_mem _ (ih h)

theorem mem_errorKinds {i : Instr} {s : State} {k : ErrorKind} (h : checkPart i s = some k) : k ∈ errorKinds i := by
  cases i with
  | setaddr | setstep | wrbyte | rmw | clear | setpixel | drawline | drawglyph => exact firstError_mem h
  | drawstring p x y fg bg =>
    rcases checkPart_drawstring_some.1 h with ⟨n, -, rfl⟩ | ⟨-, -, rfl⟩
    · rcases charError_cases s.cfg x.toNat y.toNat n with ⟨-, hkind⟩ | ⟨-, hkind⟩ <;> simp [errorKinds, hkind]
    · simp [errorKinds]

theorem unsupportedGeometry_mem_errorKinds {i : Instr} (h : .unsupportedGeometry ∈ errorKinds i) :
    ∃ x0 y0 x1 y1 color, i = .drawline x0 y0 x1 y1 color := by
  cases i with
  | drawline x0 y0 x1 y1 color => exact ⟨x0, y0, x1, y1, color, rfl⟩
  | _ => simp [errorKinds] at h

theorem invalidCharacter_mem_errorKinds {i : Instr} (h : .invalidCharacter ∈ errorKinds i) :
    ∃ p x y fg bg, i = .drawstring p x y fg bg := by
  cases i with
  | drawstring p x y fg bg => exact ⟨p, x, y, fg, bg, rfl⟩
  | _ => simp [errorKinds] at h

theorem stepNotZero_mem_errorKinds {i : Instr} (h : .stepNotZero ∈ errorKinds i) : ∃ m v, i = .rmw m v := by
  cases i with
  | rmw m v => exact ⟨m, v, rfl⟩
  | _ => simp [errorKinds] at h

/-- No command checks for IllegalCommand: it is raised at decode (R126). -/
theorem illegalCommand_notMem_errorKinds (i : Instr) : .illegalCommand ∉ errorKinds i := by
  cases i <;> simp [errorKinds]

end Sys2Proof.Machine
end

section
/-! CLAIMS. The statements of spec/60_exceptions.md, and that of the idle core. -/

namespace Sys2Proof.Machine

/-- Settles O16: an idle core and an illegal word answer at once, and a command does by `exec_answers`. -/
theorem everyStepAnswersANextState : Obligations.EveryStepAnswersANextState := by
  intro s hc
  cases hw : s.commands with
  | nil => exact ⟨s, step_idle hc hw⟩
  | cons w rest =>
    cases hd : decode w with
    | command i =>
      obtain ⟨t, hexec⟩ := exec_answers (s := { s with commands := rest }) hc i
      exact ⟨t, (step_command hc hw hd).trans hexec⟩
    | illegal why => exact ⟨_, step_illegal hc hw hd⟩

/-- Settles O18: only the check part can give a result other than 0, and it does nothing but raise. -/
theorem errorChangesNothingButErr : Obligations.ErrorChangesNothingButErr := fun _ _ _ hexec herr =>
  eq_with_err_of_exec_failure hexec herr

/-- Settles O19: the check part finds in the state it left all that it looked at. -/
theorem failedCommandFailsAgain : Obligations.FailedCommandFailsAgain := by
  intro i s t hexec herr
  obtain ⟨k, hcheck, rfl⟩ := exec_failure hexec herr
  exact exec_raises ((checkPart_raise k i s).trans hcheck)

/-- Settles O20: the result is told by the check part, which looks at nothing else. -/
theorem resultIgnoresVramFontAndErr : Obligations.ResultIgnoresVramFontAndErr := by
  intro i s s' t t' haddr hstep hwidth hheight htext hexec hexec'
  rw [exec_err hexec, exec_err hexec', checkPart_congr_inputs haddr hstep hwidth hheight htext]

/-- Settles O21: the range check is the first of every command that has one. -/
theorem addressOutOfRangeCauses : Obligations.AddressOutOfRangeCauses := by
  intro i s t hexec
  refine ⟨fun herr => ?_, (err_eq_code_iff hexec (k := .addressOutOfRange)).trans ?_⟩
  · exact herr ▸ eq_with_err_of_exec_failure hexec (herr ▸ by decide)
  cases i with
  | setstep | clear =>
    exact iff_of_false (fun hcheck => by simpa [errorKinds] using mem_errorKinds hcheck) id
  | setaddr a => simp [checkPart_setaddr_some]
  | wrbyte v => simp [checkPart_wrbyte_some]
  | rmw m v => simp [checkPart_rmw_some]
  | setpixel x y color => simp [checkPart_setpixel_some, ← not_inRange_iff]
  | drawline x0 y0 x1 y1 color => simp [checkPart_drawline_some, ← not_endsInRange_iff]
  | drawglyph g x y fg bg => simp [checkPart_drawglyph_some, ← not_boxInRange_iff]
  | drawstring p x y fg bg =>
    simp [checkPart_drawstring_some, charError_eq_addressOutOfRange, ← not_boxInRange_iff]

/-- Settles O22: only DRAWLINE checks the geometry, after the coordinates. -/
theorem unsupportedGeometryCauses : Obligations.UnsupportedGeometryCauses := by
  intro i s t hexec
  refine (err_eq_code_iff hexec (k := .unsupportedGeometry)).trans ⟨fun hcheck => ?_, ?_⟩
  · obtain ⟨x0, y0, x1, y1, color, rfl⟩ := unsupportedGeometry_mem_errorKinds (mem_errorKinds hcheck)
    rcases checkPart_drawline_some.1 hcheck with ⟨-, hkind⟩ | ⟨hends, ⟨hline, -⟩ | ⟨-, -, hkind⟩⟩
    · cases hkind
    · exact ⟨x0, y0, x1, y1, color, rfl, endsInRange_iff.1 hends, not_supportedLine_iff.1 hline⟩
    · cases hkind
  · rintro ⟨x0, y0, x1, y1, color, rfl, hends, hline⟩
    exact checkPart_drawline_some.2 (.inr ⟨endsInRange_iff.2 hends, .inl ⟨not_supportedLine_iff.2 hline, rfl⟩⟩)

/-- Settles O23: only the scan of a DRAWSTRING checks characters, after the range of each one's box. -/
theorem invalidCharacterCauses : Obligations.InvalidCharacterCauses := by
  intro i s t hexec
  refine ⟨fun herr => ?_, (err_eq_code_iff hexec (k := .invalidCharacter)).trans ⟨fun hcheck => ?_, ?_⟩⟩
  · exact herr ▸ eq_with_err_of_exec_failure hexec (herr ▸ by decide)
  · obtain ⟨p, x, y, fg, bg, rfl⟩ := invalidCharacter_mem_errorKinds (mem_errorKinds hcheck)
    rcases checkPart_drawstring_some.1 hcheck with ⟨n, hfails, hkind⟩ | ⟨-, -, hkind⟩
    · have hbox := charError_eq_invalidCharacter.1 hkind
      exact ⟨p, x, y, fg, bg, n, rfl, hfails, hbox, not_covered_of_stringFailsAt hfails hbox⟩
    · cases hkind
  · rintro ⟨p, x, y, fg, bg, n, rfl, hfails, hbox, -⟩
    exact checkPart_drawstring_some.2 (.inl ⟨n, hfails, charError_eq_invalidCharacter.2 hbox⟩)

/-- Settles O24: the colours are checked last, and by composite commands only. -/
theorem invalidColorCauses : Obligations.InvalidColorCauses := by
  intro i s t hexec
  refine (err_eq_code_iff hexec (k := .invalidColor)).trans ?_
  cases i with
  | setaddr | setstep | wrbyte | rmw =>
    exact iff_of_false (fun hcheck => by simpa [errorKinds] using mem_errorKinds hcheck) id
  | clear color => simp [checkPart_clear_some]
  | setpixel x y color => simp [checkPart_setpixel_some]
  | drawline x0 y0 x1 y1 color => simp [checkPart_drawline_some, ← endsInRange_iff, ← supportedLine_iff]
  | drawglyph g x y fg bg => simp [checkPart_drawglyph_some, ← not_legalColors_iff]
  | drawstring p x y fg bg =>
    simp [checkPart_drawstring_some, ← not_legalColors_iff, charError_ne_invalidColor]

/-- Settles O25: only RMW checks `STEP`, after `ADDR`; no check part raises IllegalCommand. -/
theorem stepNotZeroCauses : Obligations.StepNotZeroCauses := by
  intro i s t hexec
  refine ⟨(err_eq_code_iff hexec (k := .stepNotZero)).trans ⟨fun hcheck => ?_, ?_⟩, fun hsix => ?_,
    exec_err hexec ▸ resultCode_ne_seven _⟩
  · obtain ⟨m, v, rfl⟩ := stepNotZero_mem_errorKinds (mem_errorKinds hcheck)
    rcases checkPart_rmw_some.1 hcheck with ⟨-, hkind⟩ | ⟨haddr, hstep, -⟩
    · cases hkind
    · exact ⟨⟨m, v, rfl⟩, haddr, (BitVec.eq_zero_or_eq_one s.stepReg).resolve_left hstep⟩
  · rintro ⟨⟨m, v, rfl⟩, haddr, hstep⟩
    exact checkPart_rmw_some.2 (.inr ⟨haddr, by rw [hstep]; decide, rfl⟩)
  · have hcheck := (err_eq_code_iff hexec (k := .illegalCommand)).1 hsix
    exact illegalCommand_notMem_errorKinds i (mem_errorKinds hcheck)

/-- Settles O14: an idle core takes a step that changes nothing. -/
theorem idleCoreKeepsItsState : Obligations.IdleCoreKeepsItsState := fun _ hc hw => step_idle hc hw

end Sys2Proof.Machine
end

section
/-! SUPPORT. How many port micro-operations a command makes (spec/70_reset_and_hazards.md rule R150): the lengths of the
event lists its effect part logs; and the bound of the string scan. -/

namespace Sys2Proof.Machine

/-! ### Lengths of event lists -/

/-- The events of a loop are counted by a running total that each body moves on by the length of its own events. -/
theorem length_flatMap_range' {α : Type} (f : Nat → List α) (total : Nat → Nat) (a n : Nat)
    (h : ∀ i, i < a + n → total (i + 1) = total i + (f i).length) :
    total (a + n) = total a + ((List.range' a n).flatMap f).length := by
  induction n with
  | zero => rfl
  | succ n ih =>
    rw [List.range'_concat, List.flatMap_append, List.length_append, ← Nat.add_assoc (total a),
      ← ih fun i hi => h i (by omega), Nat.one_mul, List.flatMap_singleton]
    exact h (a + n) (by omega)

/-- A read-modify-write for every row, and an advance after every row but the last (R102). -/
theorem length_verticalEvents (c : Config) (x0 : Nat) {y0 y1 : Nat} (hy : y0 ≤ y1) (k : Byte) :
    (verticalEvents c x0 y0 y1 k).length = (y1 - y0 + 1) + (y1 - y0) := by
  obtain ⟨n, rfl⟩ := Nat.exists_eq_add_of_le hy
  have hinit := length_flatMap_range' (fun y => PortEvent.rmw (off c x0 y) (pmask x0) (pval x0 k) ::
    (if y < y0 + n then [.adv c.rowBytes] else [])) (fun y => 2 * y) y0 n fun y hlt => by
      simp [hlt, Nat.mul_add]
  simp only [verticalEvents, Nat.add_sub_cancel_left, List.range'_concat, List.flatMap_append, List.length_append,
    Nat.one_mul, List.flatMap_singleton, Nat.lt_irrefl, if_false, List.length_singleton]
  omega

/-- A read-modify-write for every column, and an advance where the next column begins a byte (R103). -/
theorem length_horizontalEvents (c : Config) {x0 x1 : Nat} (hx : x0 ≤ x1) (y0 : Nat) (k : Byte) :
    (horizontalEvents c x0 x1 y0 k).length = (x1 - x0 + 1) + (x1 / 2 - x0 / 2) := by
  obtain ⟨n, rfl⟩ := Nat.exists_eq_add_of_le hx
  have hinit := length_flatMap_range' (fun x => PortEvent.rmw (off c x y0) (pmask x) (pval x k) ::
    (if x < x0 + n ∧ x % 2 = 1 then [.adv 1] else [])) (fun x => x + x / 2) x0 n fun x hlt => by
      rcases Nat.mod_two_eq_zero_or_one x with hpar | hpar <;> simp [hlt, hpar] <;> omega
  simp only [horizontalEvents, Nat.add_sub_cancel_left, List.range'_concat, List.flatMap_append, List.length_append,
    Nat.one_mul, List.flatMap_singleton, Nat.lt_irrefl, false_and, if_false, List.length_singleton]
  omega

/-- The events of a supported line: those that program the port, and those of its path. -/
theorem length_lineEvents (c : Config) {x0 y0 x1 y1 : Nat} (hline : supportedLine x0 y0 x1 y1) (k : Byte) :
    (lineEvents c x0 y0 x1 y1 k).length =
      if x0 = x1 then 2 + (y1 - y0 + 1) + (y1 - y0) else 2 + (x1 - x0 + 1) + (x1 / 2 - x0 / 2) := by
  obtain ⟨hx, hy⟩ := supportedLine_le hline
  unfold lineEvents
  split_ifs
  · rw [List.length_cons, List.length_cons, length_verticalEvents c x0 hy]
    omega
  · rw [List.length_cons, List.length_cons, length_horizontalEvents c hx]
    omega

/-- Three events for each of the 64 cells (R114). -/
theorem length_glyphEvents (c : Config) (g : Glyph) (x y : Nat) (fg bg : Byte) :
    (glyphEvents c g x y fg bg).length = 192 := by
  simp [glyphEvents, pixelEvents, List.length_flatMap]

/-- Those of a glyph for each character (R115). -/
theorem length_stringEvents (c : Config) (p x y n : Nat) (fg bg : Byte) :
    (stringEvents c p x y n fg bg).length = 192 * n := by
  simp [stringEvents, List.length_flatMap, length_glyphEvents, Nat.mul_comm]

/-! ### Counts of events in `TRACE` -/

theorem length_events_of_append {s t : State} {evs : List PortEvent} (h : t.events = s.events ++ evs) :
    t.events.length = s.events.length + evs.length := by
  rw [h, List.length_append]

theorem Draws.length_events {s t : State} {ds : List Dot} {evs : List PortEvent} {a : Nat} (h : Draws s t ds evs a) :
    t.events.length = s.events.length + evs.length :=
  length_events_of_append h.events

/-- Completing logs nothing (R17). -/
@[simp] theorem complete_events (s : State) : (complete s).events = s.events := rfl

/-- One micro-operation is one event (R80). -/
theorem length_events_of_trace_cons {e : PortEvent} {s t : State} (h : t.trace = e :: s.trace) :
    t.events.length = s.events.length + 1 :=
  length_events_of_append (events_of_trace_cons e s t h)

theorem length_events_clearEffect {s : State} (hs : Inv s) (color : Byte) :
    (clearEffect color s).events.length = s.events.length + (2 + s.cfg.surfaceBytes) := by
  have hcount := length_events_of_append (leaves_clear hs color).eventsAre
  rw [List.length_cons, List.length_cons, List.length_map, List.length_range] at hcount
  exact hcount.trans (by omega)

/-- The characters of a string, of which there may be none (R113). -/
theorem length_events_stringChars {s : State} (hc : s.cfg.wf = true) {p x y n : Nat} (fg bg : Byte)
    (h : ∀ k, k < n → charPasses s.cfg p x y k) :
    (forUp (stringChar p x y fg bg) 0 n s).events.length = s.events.length + 192 * n := by
  cases n with
  | zero => rfl
  | succ n =>
    rw [(draws_stringChars hc fg bg fun i hi => (h i hi).2.1).length_events, length_stringEvents]

/-! ### The bound of the scan -/

/-- Every string has a first character that does not pass, its sentinel included, and the bound of the scan reaches it
(R113, R150). -/
theorem exists_first_not_charPasses (c : Config) (p x y : Nat) :
    ∃ n, n ≤ c.width / 8 ∧ (∀ k, k < n → charPasses c p x y k) ∧ ¬ charPasses c p x y n := by
  rcases exists_stringOf_or_stringFailsAt c p x y with ⟨n, hpass, hend⟩ | ⟨n, hpass, -, hfail⟩
  · exact ⟨n, count_le_of_charPasses hpass, hpass, fun ⟨hchar, _⟩ => hchar hend⟩
  · exact ⟨n, count_le_of_charPasses hpass, hpass, hfail⟩

/-- At a character that does not pass the scan answers at once, whatever its bound (R113). -/
theorem scanFrom_of_not_charPasses {c : Config} {p x y n : Nat} (h : ¬ charPasses c p x y n) (fuel fuel' : Nat) :
    scanFrom c p x y (fuel + 1) n = scanFrom c p x y (fuel' + 1) n := by
  rw [scanFrom_succ, scanFrom_succ]
  by_cases hchar : textRead c (p + n) = 0#8
  · rw [if_pos hchar, if_pos hchar]
  by_cases hbox : boxInRange c (x + 8 * n) y
  · have hcov : ¬ covered (textRead c (p + n)).toNat := fun hcov => h ⟨hchar, hbox, hcov⟩
    simp only [if_pos hcov]
  · simp only [if_pos hbox]

/-- Any bound past the last box that fits on the surface gives the answer of the scan (R150). -/
theorem scanFrom_eq_scanString {c : Config} {p x y fuel : Nat} (hfuel : c.width / 8 + 1 ≤ fuel) :
    scanFrom c p x y fuel 0 = scanString c p x y := by
  obtain ⟨n, hn, hpass, hstop⟩ := exists_first_not_charPasses c p x y
  obtain ⟨rest, hscan⟩ := exists_scanString_eq_scanFrom hpass
  obtain ⟨more, rfl⟩ := Nat.exists_eq_add_of_le' (show n + 1 ≤ fuel by omega)
  calc scanFrom c p x y (more + (n + 1)) 0
      = scanFrom c p x y (more + 1) n := by
        rw [Nat.add_comm n, ← Nat.add_assoc]
        exact scanFrom_of_charPasses (more + 1) hpass
    _ = scanFrom c p x y (rest + 1) n := scanFrom_of_not_charPasses hstop more rest
    _ = scanString c p x y := hscan.symm

end Sys2Proof.Machine
end

section
/-! CLAIMS. The statements of spec/70_reset_and_hazards.md. -/

namespace Sys2Proof.Machine

/-- Settles O50: a command that raises logs nothing, and one that succeeds logs the events of its effect part. -/
theorem microOperationCounts : Obligations.MicroOperationCounts := by
  intro i s t hs hexec
  refine ⟨fun herr => ?_, fun herr => ?_⟩
  · obtain ⟨k, -, rfl⟩ := exec_failure hexec herr
    rfl
  obtain ⟨hok, -, rfl⟩ := exec_success hexec herr
  simp only [complete_events]
  cases i with
  | setaddr a => exact length_events_of_trace_cons (portSetaddr_trace _ s)
  | setstep n => exact length_events_of_trace_cons (portSetstep_trace n s)
  | wrbyte v => exact length_events_of_trace_cons (portWrite_trace v s)
  | rmw m v => exact length_events_of_trace_cons (portRmw_trace m v s)
  | clear color => exact length_events_clearEffect hs color
  | setpixel x y color =>
    exact (draws_pixelEffect s hs.cfgWf _ _ color (checkPart_setpixel_none.1 hok).1).length_events
  | drawline x0 y0 x1 y1 color =>
    have hline := checkPart_drawline_none_iff_drawable.1 hok
    have hcount := (draws_lineEffect hs.cfgWf hline).length_events
    rw [length_lineEvents s.cfg hline.line] at hcount
    simp only [← BitVec.toNat_inj]
    split_ifs with hx
    · rwa [if_pos hx] at hcount
    · rwa [if_neg hx] at hcount
  | drawglyph g x y fg bg =>
    have hcount := (draws_glyphBody g _ _ fg bg s hs.cfgWf (checkPart_drawglyph_none.1 hok).1).length_events
    rwa [length_glyphEvents] at hcount
  | drawstring p x y fg bg =>
    obtain ⟨⟨n, hscan⟩, -, -⟩ := checkPart_drawstring_none.1 hok
    have hstring := stringOf_of_scanString_clean hscan
    refine ⟨n, hstring, count_le_of_charPasses hstring.1, ?_⟩
    simp only [effectPart, hscan, scan_count_clean]
    exact length_events_stringChars hs.cfgWf fg bg hstring.1

/-- Settles O53: the scan stops at the first character that does not pass, which is at most the one whose box no longer
fits. -/
theorem stringScanAlwaysEnds : Obligations.StringScanAlwaysEnds := by
  intro c p x y fuel hfuel
  refine ⟨scanFrom_eq_scanString hfuel, ?_⟩
  rcases exists_stringOf_or_stringFailsAt c p x y with ⟨n, hstring⟩ | ⟨n, hfails⟩
  · exact .inl ⟨n, count_le_of_charPasses hstring.1, hstring⟩
  · exact .inr ⟨n, count_le_of_charPasses hfails.1, hfails⟩

end Sys2Proof.Machine
end
